-- ==== Sys2Proof/Word.lean ====
section
/-! DEFINITION. The two word types of the hardware (00_scope.md R4, R5). -/

namespace Sys2Proof

/-- `CELL` = `XLEN` = 8: a memory cell, a general register, an opcode or operand byte, always unsigned (R4, R5). -/
abbrev Byte := BitVec 8

/-- `PCW` = 9: the program counter, and the width of `fault_info` and of the load address port (R16, R19, R27). -/
abbrev PcWord := BitVec 9

end Sys2Proof
end

