-- ==== Sys2Proof/Config.lean ====
section
/-! DEFINITION. The one value the spec leaves open (42_output_and_halt.md R97), and the longest instruction. The other
parameters of 00_scope.md R4 are fixed numbers and stand as such where they are used: 256 cells (`MEM_SIZE`), 8 registers
(`NREG`), 8-bit cells and registers and a 9-bit pc (Word.lean). -/

namespace Sys2Proof.Config

/-- `MAXLEN`: the longest defined instruction in bytes (R4). -/
abbrev maxLen : Nat := 3

/-- FREE VALUE. The `pc` after HLT "is not architecturally defined" and a model treats it "as any value" (R97, U1).
The argument is `State.freeIdx`, so that each HLT draws a fresh one. No body: nothing is provable of its value.
Log entry 1, safe. -/
opaque haltPc : Nat → PcWord

end Sys2Proof.Config
end

