-- ==== Sys2Proof/Syntax.lean ====
section
/-! DEFINITION. The instruction set: the seven rows of spec/opcode_table.json (30_encoding.md R54). -/

namespace Sys2Proof

/-- The instructions the opcode table selects (R24, R54): the result of the table lookup, before any operand is read. -/
inductive Opcode where
  | ldi | prn | hlt | add | sub | mul | div
  deriving DecidableEq, Repr

/-- The ALU's closed operation selector (43_alu.md R111). -/
inductive AluOp where
  | add | sub | mul | div
  deriving DecidableEq, Repr

/-- An instruction with its operand bytes. Operands are whole bytes (R53): an out-of-range register index is still
a defined instruction, which faults when it executes (R57). -/
inductive Instr where
  /-- LDI, R90: register index `opA`, immediate `opB`. -/
  | ldi (opA opB : Byte)
  /-- PRN, R95: register index `opA`. -/
  | prn (opA : Byte)
  /-- HLT, R96. -/
  | hlt
  /-- ADD, R106: register indices `opA` (destination) and `opB`. -/
  | add (opA opB : Byte)
  /-- SUB, R107. -/
  | sub (opA opB : Byte)
  /-- MUL, R108. -/
  | mul (opA opB : Byte)
  /-- DIV, R109. -/
  | div (opA opB : Byte)
  deriving DecidableEq, Repr

end Sys2Proof
end

