-- ==== Sys2Proof/Decode.lean ====
section
/-! DEFINITION. The opcode table, the width rule, the decoder and the encoder (30_encoding.md R50 to R57,
40_step_and_dispatch.md R72 to R75). -/

namespace Sys2Proof

/-- `NOPS = ir[7:6]`, the number of operand bytes, from the opcode byte alone (R50, R73). -/
def nops (ir : Byte) : Nat := ((ir >>> 6) &&& 3#8).toNat

/-- The table lookup over all 8 bits of the opcode byte: one of the seven, or unknown (R24, R54, R55, R74). -/
def lookup (ir : Byte) : Option Opcode :=
  match ir with
  | 0b10000010#8 => some .ldi
  | 0b01000111#8 => some .prn
  | 0b00000001#8 => some .hlt
  | 0b10100000#8 => some .add
  | 0b10100001#8 => some .sub
  | 0b10100010#8 => some .mul
  | 0b10100011#8 => some .div
  | _ => none

/-- The instruction of a table entry with its operand bytes; a byte the format lacks is not looked at (R51). -/
def Opcode.withOperands (op : Opcode) (opA opB : Byte) : Instr :=
  match op with
  | .ldi => .ldi opA opB
  | .prn => .prn opA
  | .hlt => .hlt
  | .add => .add opA opB
  | .sub => .sub opA opB
  | .mul => .mul opA opB
  | .div => .div opA opB

/-- Operand fetch of one byte: read only when the operand count says it exists (R75). -/
def operandByte {ε : Type} (present : Bool) (read : Except ε Byte) : Except ε Byte :=
  if present then read else .ok 0

/-- Stages 1 to 4 of the step over any source of bytes, `read k` being the byte at distance `k` from the opcode:
fetch, width, table lookup, then the operand bytes in ascending order, the lookup before any operand (R71 to R75). -/
def decodeWith {ε : Type} (read : Nat → Except ε Byte) (unknown : Byte → ε) : Except ε Instr :=
  match read 0 with
  | .error e => .error e
  | .ok ir =>
    match lookup ir with
    | none => .error (unknown ir)
    | some op =>
      match operandByte (decide (1 ≤ nops ir)) (read 1) with
      | .error e => .error e
      | .ok opA =>
        match operandByte (decide (2 ≤ nops ir)) (read 2) with
        | .error e => .error e
        | .ok opB => .ok (op.withOperands opA opB)

/-- Why a byte string is no instruction. -/
inductive DecodeError where
  /-- The first byte is none of the seven opcodes (R55). -/
  | unknownOpcode (ir : Byte)
  /-- The byte at distance `k` from the opcode is missing. -/
  | truncated (k : Nat)
  deriving DecidableEq, Repr

/-- The byte at distance `k`, or `truncated`. -/
def byteAt (bytes : List Byte) (k : Nat) : Except DecodeError Byte :=
  match bytes[k]? with
  | some b => .ok b
  | none => .error (.truncated k)

/-- The opcode of an instruction. -/
def Instr.opcode : Instr → Opcode
  | .ldi _ _ => .ldi
  | .prn _ => .prn
  | .hlt => .hlt
  | .add _ _ => .add
  | .sub _ _ => .sub
  | .mul _ _ => .mul
  | .div _ _ => .div

/-- The opcode byte, as the table of R54 prints it. -/
def Opcode.byte : Opcode → Byte
  | .ldi => 0x82
  | .prn => 0x47
  | .hlt => 0x01
  | .add => 0xA0
  | .sub => 0xA1
  | .mul => 0xA2
  | .div => 0xA3

/-- The instruction width in bytes, `NOPS + 1`, from the opcode byte (R50). -/
def Opcode.width (op : Opcode) : Nat := 1 + nops op.byte

/-- The decoder: an instruction from the front of a byte string, with the bytes after it; total, rejecting by name. -/
def decode (bytes : List Byte) : Except DecodeError (Instr × List Byte) :=
  match decodeWith (byteAt bytes) .unknownOpcode with
  | .error e => .error e
  | .ok i => .ok (i, bytes.drop i.opcode.width)

/-- The encoder: opcode at the lowest address, then `op_a`, then `op_b` (R34, R51, R58). -/
def encode (i : Instr) : List Byte :=
  i.opcode.byte ::
    match i with
    | .ldi opA opB => [opA, opB]
    | .prn opA => [opA]
    | .hlt => []
    | .add opA opB => [opA, opB]
    | .sub opA opB => [opA, opB]
    | .mul opA opB => [opA, opB]
    | .div opA opB => [opA, opB]

/-- The `MAXLEN` bytes at the front of an instruction whose bits are `w`, bit 0 the least significant bit of the first
byte, every bit from `nbits` up taken as 0. -/
def tableBytes (nbits w : Nat) : List Byte :=
  (List.range Config.maxLen).map fun k => BitVec.ofNat 8 ((w % 2 ^ nbits) / 2 ^ (8 * k))

/-- The instruction the decoder reads from the bits `w` of a row of spec/opcode_table.json, if it accepts them. -/
def decodeTableWord (nbits w : Nat) : Option Instr :=
  match decode (tableBytes nbits w) with
  | .ok (i, _) => some i
  | .error _ => none

end Sys2Proof
end

