-- ==== Sys2Proof/Machine/State.lean ====
section
/-! DEFINITION. The architectural state (10_state.md R10), the interface levels the step and the load port depend on
(R27), the faults, the refusals, and the state after reset (R26). -/

namespace Sys2Proof.Machine

/-- `run_state` (R18). The fourth value of the 2-bit field is never produced, so it has no constructor. -/
inductive RunState where
  | running | halted | faulted
  deriving DecidableEq, Repr

/-- `fault_code` (R19). The values 5 to 7 are never produced, so they have no constructor. -/
inductive FaultCode where
  | none | unknownOpcode | outOfBoundsMem | outOfBoundsReg | divisionByZero
  deriving DecidableEq, Repr

/-- The faults the core raises, with the detail each records (60_exceptions.md R120). Fault entry is described by the
spec (R126), so a raised fault is TAKEN as a next state (`takeFault`): no step and no instruction ends in
`Outcome.fault`. Each is safe: it is what the spec says happens. -/
inductive Fault where
  /-- Raised by the table lookup on a byte that is none of the seven opcodes (R121). Safe: the spec's own fault. -/
  | unknownOpcode (ir : Byte)
  /-- Raised by `memRead` at an address of 256 or more (R122). Safe: the spec's own fault. -/
  | outOfBoundsMem (addr : Nat)
  /-- Raised by `regCheck` on an operand byte of 8 or more, in LDI, PRN, ADD, SUB, MUL, DIV (R123). Safe: the spec's own fault. -/
  | outOfBoundsReg (index : Byte)
  /-- Raised by DIV when the divisor register holds 0 (R124). Safe: the spec's own fault. -/
  | divisionByZero (opB : Byte)
  deriving DecidableEq, Repr

/-- Why the model gives no next state. No instruction and no step is refused. -/
inductive Refusal where
  /-- An instruction without a meaning; no arm of `exec` answers it. Safe: the model stops. -/
  | notModelled (mnemonic : String)
  /-- Raised by `hostMove` for a load write outside the load phase: the spec gives the host no such move (R45, R164).
  Safe: the model stops; log entry 5. -/
  | loadOutsideLoadPhase
  deriving DecidableEq, Repr

/-- Memory as the cells that differ from their reset value 0, addresses strictly rising (R21, R26). -/
abbrev Memory := List Host.Cell

/-- The machine's state. -/
structure State where
  /-- `x[0..7]`, the general registers (R11). -/
  x : Vector Byte 8
  /-- `pc`, the program counter (R15, R16). -/
  pc : PcWord
  /-- `run_state` (R18). -/
  runState : RunState
  /-- `fault_code` (R19). -/
  faultCode : FaultCode
  /-- `fault_info` (R19). -/
  faultInfo : BitVec 9
  /-- `M[0..255]` (R21). -/
  mem : Memory
  /-- `out`, the output event stream, oldest first (R22). -/
  out : List Byte
  /-- The level of the input port `run_en` (R27, R70); driven by the host, written by no instruction. Log entry 3. -/
  runEn : Bool
  /-- The output port `ld_err`: the last load write was refused (R27, R32). Log entry 4. -/
  ldErr : Bool
  /-- The model's own: the position in the stream of free values, advanced by each HLT (R97). Log entry 1. -/
  freeIdx : Nat
  deriving DecidableEq, Repr

/-- The machine right after reset (R26, R150). `runEn`, `ldErr` and `freeIdx` are not in the table of R26:
their values are DESIGN CHOICES (log entries 3, 4 and 1). -/
def State.reset : State where
  x := Vector.replicate 8 0
  pc := 0
  runState := .running
  faultCode := .none
  faultInfo := 0
  mem := []
  out := []
  runEn := true
  ldErr := false
  freeIdx := 0

end Sys2Proof.Machine
end

