-- ==== Sys2Proof/Machine/Ops.lean ====
section
/-! DEFINITION. The named operations over memory, registers, the output stream, the pc and the fault record; instruction
fetch; taking a fault. -/

namespace Sys2Proof.Machine

/-! ### Memory (20_memory.md) -/

/-- What a cell nothing has written holds: 0 (10_state.md R26, 20_memory.md R38 (c)). -/
def blankByte : Byte := 0

/-- `M[a]`, without the bounds check (R6). -/
def Memory.read : Memory → Nat → Byte
  | [], _ => blankByte
  | (b, w) :: m, a => if a = b then w else Memory.read m a

/-- `M[a] <- v`, without the bounds check; a cell that holds its reset value is not listed (R6). -/
def Memory.write : Memory → Nat → Byte → Memory
  | [], a, v => if v = blankByte then [] else [(a, v)]
  | (b, w) :: m, a, v =>
    if a < b then (if v = blankByte then (b, w) :: m else (a, v) :: (b, w) :: m)
    else if a = b then (if v = blankByte then m else (a, v) :: m)
    else (b, w) :: Memory.write m a v

/-- From address `lo` on: strictly rising addresses inside the space, no cell equal to its reset value. -/
def Memory.wfFrom : Nat → Memory → Bool
  | _, [] => true
  | lo, (b, w) :: m =>
    decide (lo ≤ b) && decide (b < 256) && decide (w ≠ blankByte) && Memory.wfFrom (b + 1) m

/-- The canonical form of memory. -/
def Memory.wf (m : Memory) : Bool := Memory.wfFrom 0 m

/-- `MemRead(addr, 1)`: the bounds-checked read (R31). The address is a natural number, so nothing wraps (R33). -/
def memRead (m : Memory) (addr : Nat) : Except Fault Byte :=
  if 256 ≤ addr then .error (.outOfBoundsMem addr) else .ok (Memory.read m addr)

/-- `MemWrite(addr, 1, v)`: the bounds-checked write of the load port (R32). A refused write changes no cell and sets
`ld_err`; an accepted one clears it, since the port says whether "the last load write was refused" (R27; log entry 4). -/
def memWrite (addr : Nat) (v : Byte) (s : State) : State :=
  if 256 ≤ addr then { s with ldErr := true }
  else { s with mem := Memory.write s.mem addr v, ldErr := false }

/-- Consecutive cells from address `a` up; addresses outside the space are skipped. -/
def Memory.writeBytes (m : Memory) (a : Nat) : List Byte → Memory
  | [] => m
  | b :: bs => Memory.writeBytes (if a < 256 then Memory.write m a b else m) (a + 1) bs

/-! ### Registers (10_state.md R11 to R14) -/

/-- `x[i]`. -/
def State.reg (s : State) (i : Fin 8) : Byte := s.x[i.val]

/-- `x[i] <- v`; no register is special (R12). -/
def State.setReg (s : State) (i : Fin 8) (v : Byte) : State := { s with x := s.x.set i.val v }

/-! ### Output, halt, advance -/

/-- `out.append(v)` (R22). -/
def State.emit (s : State) (v : Byte) : State := { s with out := s.out ++ [v] }

/-- `pc <- pc + 1 + NOPS` (R77). The sum never wraps: a step that completes leaves at most 256 (R16). -/
def State.advance (s : State) (n : Nat) : State := { s with pc := s.pc + BitVec.ofNat 9 (1 + n) }

/-- HLT's effect (R96) with the pc that R97 leaves open: a FREE VALUE, log entry 1. -/
def State.halt (s : State) : State :=
  { s with runState := .halted, pc := Config.haltPc s.freeIdx, freeIdx := s.freeIdx + 1 }

/-! ### Faults (60_exceptions.md) -/

/-- The `fault_code` of a fault (R120). -/
def Fault.code : Fault → FaultCode
  | .unknownOpcode _ => .unknownOpcode
  | .outOfBoundsMem _ => .outOfBoundsMem
  | .outOfBoundsReg _ => .outOfBoundsReg
  | .divisionByZero _ => .divisionByZero

/-- The `fault_info` of a fault: the opcode byte, the address, the operand byte or `op_b` (R19, R120). The only address
a step of a reachable state presents is 256, so the 9 bits lose nothing (R122). -/
def Fault.info : Fault → BitVec 9
  | .unknownOpcode ir => ir.zeroExtend 9
  | .outOfBoundsMem addr => BitVec.ofNat 9 addr
  | .outOfBoundsReg index => index.zeroExtend 9
  | .divisionByZero opB => opB.zeroExtend 9

/-- TAKING A FAULT (R126): the record and `run_state` are written; `x`, `pc`, `M` and `out` keep the values they had at
the start of the step. There is no handler and no return (R129). -/
def takeFault (f : Fault) (s : State) : State :=
  { s with runState := .faulted, faultCode := f.code, faultInfo := f.info }

/-! ### The step's shared stages (40_step_and_dispatch.md) -/

/-- A step is taken only in RUNNING with `run_en` 1 (R70). -/
def canStep (s : State) : Bool := decide (s.runState = .running) && s.runEn

/-- Stages 1 to 4 of the step at `pc`: fetch, width, lookup and operand fetch through the bounds-checked read (R71 to
R75). -/
def fetchInstr (s : State) : Except Fault Instr :=
  decodeWith (fun k => memRead s.mem (s.pc.toNat + k)) Fault.unknownOpcode

/-- Stage 6 after the handler of `op` ran on `s`: a completed handler's state advances by the width its opcode byte
gives (R73, R77); a raise discards every write of the step (R7, R126). -/
def retire (op : Opcode) (s : State) (handled : Except Fault State) : Host.Outcome State Fault Refusal :=
  match handled with
  | .ok t => .next (t.advance (nops op.byte))
  | .error f => .next (takeFault f s)

/-- What step answers when the fetch raised (R126). -/
def fetchFault (f : Fault) (s : State) : Host.Outcome State Fault Refusal := .next (takeFault f s)

/-- What step answers when no step is taken: the state unchanged (R70, R78). -/
def idle (s : State) : Host.Outcome State Fault Refusal := .next s

/-- `s` with the bytes of a table word stored at `pc` and `run_en` at 1, so that the next step fetches it: the host's
load and start in one (R152, R164). -/
def placeAtPc (s : State) (nbits w : Nat) : State :=
  { s with mem := Memory.writeBytes s.mem s.pc.toNat (tableBytes nbits w), runEn := true }

end Sys2Proof.Machine
end

