-- ==== Sys2Proof/Machine/Operands.lean ====
section
/-! DEFINITION. The two uses of an operand byte: register index and immediate (30_encoding.md R53). -/

namespace Sys2Proof.Machine

/-- `RegCheck`: the whole operand byte is the index; 8 or more raises, it is never masked (10_state.md R14). -/
def regCheck (b : Byte) : Except Fault (Fin 8) :=
  if h : b.toNat < 8 then .ok ⟨b.toNat, h⟩ else .error (.outOfBoundsReg b)

/-- `zext_8(op_b)`: the byte itself (R53 (b), R90). -/
def immediate (b : Byte) : Byte := b

end Sys2Proof.Machine
end

