-- ==== Sys2Proof/Machine/Flags.lean ====
section
/-! DEFINITION. The ALU's arithmetic laws (43_alu.md R110). There are no flags (10_state.md R17): no carry, borrow,
overflow, zero or sign is computed or recorded, so this file holds the results alone. -/

namespace Sys2Proof.Machine

/-- The exact integer result on unsigned operands; none for a zero divisor (R106 to R110). DIV is floor division. -/
def aluExact (op : AluOp) (a b : Byte) : Option Int :=
  match op with
  | .add => some ((a.toNat : Int) + b.toNat)
  | .sub => some ((a.toNat : Int) - b.toNat)
  | .mul => some ((a.toNat : Int) * b.toNat)
  | .div => if b.toNat = 0 then none else some (Int.fdiv a.toNat b.toNat)

/-- `r mod 256`, in 0 to 255 also for a negative `r` (00_scope.md R6, R110). -/
def narrow (r : Int) : Byte := BitVec.ofInt 8 r

end Sys2Proof.Machine
end

