-- ==== Sys2Proof/Machine/Alu.lean ====
section
/-! DEFINITION. ADD, SUB, MUL, DIV (43_alu.md R105 to R109). -/

namespace Sys2Proof.Machine

/-- The common handler (R105): check `op_a`, check `op_b`, read both registers, raise on a zero divisor, then write the
result modulo 256 to `x[op_a]`. -/
def aluHandler (op : AluOp) (opA opB : Byte) (s : State) : Except Fault State :=
  match regCheck opA with
  | .error f => .error f
  | .ok a =>
    match regCheck opB with
    | .error f => .error f
    | .ok b =>
      match aluExact op (s.reg a) (s.reg b) with
      | none => .error (.divisionByZero opB)
      | some r => .ok (s.setReg a (narrow r))

/-- ADD (R106). -/
def execAdd (opA opB : Byte) (s : State) : Host.Outcome State Fault Refusal :=
  retire .add s (aluHandler .add opA opB s)

/-- SUB (R107): the destination is the minuend. -/
def execSub (opA opB : Byte) (s : State) : Host.Outcome State Fault Refusal :=
  retire .sub s (aluHandler .sub opA opB s)

/-- MUL (R108): the low 8 bits of the product. -/
def execMul (opA opB : Byte) (s : State) : Host.Outcome State Fault Refusal :=
  retire .mul s (aluHandler .mul opA opB s)

/-- DIV (R109): floor division; DivisionByZero on a zero divisor. -/
def execDiv (opA opB : Byte) (s : State) : Host.Outcome State Fault Refusal :=
  retire .div s (aluHandler .div opA opB s)

end Sys2Proof.Machine
end

