-- ==== Sys2Proof/Machine/ImmediateLoad.lean ====
section
/-! DEFINITION. LDI (41_immediate_load.md R90). -/

namespace Sys2Proof.Machine

/-- LDI, load immediate: `RegCheck(op_a)`; `x[op_a] <- zext_8(op_b)`; `pc <- pc + 3` (R90). -/
def execLdi (opA opB : Byte) (s : State) : Host.Outcome State Fault Refusal :=
  retire .ldi s <|
    match regCheck opA with
    | .error f => .error f
    | .ok a => .ok (s.setReg a (immediate opB))

end Sys2Proof.Machine
end

