-- ==== Sys2Proof/Machine/OutputHalt.lean ====
section
/-! DEFINITION. PRN and HLT (42_output_and_halt.md R95, R96, R97). -/

namespace Sys2Proof.Machine

/-- PRN, print register: `RegCheck(op_a)`; `out.append(x[op_a])`; `pc <- pc + 2` (R95). -/
def execPrn (opA : Byte) (s : State) : Host.Outcome State Fault Refusal :=
  retire .prn s <|
    match regCheck opA with
    | .error f => .error f
    | .ok a => .ok (s.emit (s.reg a))

/-- HLT, halt: `run_state <- HALTED` (R96); the pc afterwards is a free value (R97, log entry 1). -/
def execHlt (s : State) : Host.Outcome State Fault Refusal := .next s.halt

end Sys2Proof.Machine
end

