-- ==== Sys2Proof/Machine/Dispatch.lean ====
section
/-! DEFINITION. Stages 5 and 6 of the step: the closed dispatch over the seven instructions (R74, R76, R77). -/

namespace Sys2Proof.Machine

def exec (i : Instr) (s : State) : Host.Outcome State Fault Refusal :=
  match i with
  | .ldi opA opB => Sys2Proof.Machine.execLdi opA opB s
  | .prn opA => Sys2Proof.Machine.execPrn opA s
  | .hlt => Sys2Proof.Machine.execHlt s
  | .add opA opB => Sys2Proof.Machine.execAdd opA opB s
  | .sub opA opB => Sys2Proof.Machine.execSub opA opB s
  | .mul opA opB => Sys2Proof.Machine.execMul opA opB s
  | .div opA opB => Sys2Proof.Machine.execDiv opA opB s

end Sys2Proof.Machine
end

