-- ==== Sys2Proof/Machine/Step.lean ====
section
/-! DEFINITION. One step (40_step_and_dispatch.md R70, R71), and the state whose next step fetches a given word. -/

namespace Sys2Proof.Machine

/-- One step (R70, R71): nothing when no step may be taken; else fetch, decode, operand fetch, then the instruction. -/
def step (s : State) : Host.Outcome State Fault Refusal :=
  if canStep s then
    match fetchInstr s with
    | .ok i => exec i s
    | .error f => fetchFault f s
  else idle s

/-- `s` with the instruction whose bits are `w` stored where `step` fetches next. -/
def State.withFetchWord (s : State) (nbits w : Nat) : State := placeAtPc s nbits w

end Sys2Proof.Machine
end

