-- ==== Sys2Proof/Machine/HostPort.lean ====
section
/-! DEFINITION. The host's side of the block: the moves of 70_reset_and_hazards.md R164 over the ports of 10_state.md R27,
and what the ports show. -/

namespace Sys2Proof.Machine

/-- What the host can do to the block between steps (R164). -/
inductive HostMove where
  /-- `rst` (R150). -/
  | reset
  /-- `ld_we` with `ld_addr` and `ld_data` (R27, R152). -/
  | load (addr : BitVec 9) (data : Byte)
  /-- `run_en` set to a level: start is 1, pause is 0 (R70, R164). -/
  | setRunEn (level : Bool)
  deriving DecidableEq, Repr

/-- Reset: every piece of state to its value of R26 (R150). The level of `run_en` is the host's own and stays, and the
stream of free values goes on (log entries 3 and 1). -/
def hostReset (s : State) : State := { State.reset with runEn := s.runEn, freeIdx := s.freeIdx }

/-- The load phase: `run_en` 0, and no step taken since reset (R27, R152). DEDUCED: in RUNNING at pc 0 no step has been
taken, since a step that completes in RUNNING moves the pc up and no other step leaves RUNNING (log entry 5). -/
def inLoadPhase (s : State) : Bool := !s.runEn && decide (s.runState = .running) && decide (s.pc = 0)

/-- The host's moves. A load write outside the load phase is no move the spec gives (R45, R164): refused by name. -/
def hostMove (m : HostMove) (s : State) : Host.Outcome State Fault Refusal :=
  match m with
  | .reset => .next (hostReset s)
  | .load addr data =>
    if inLoadPhase s then .next (memWrite addr.toNat data s) else .refused .loadOutsideLoadPhase
  | .setRunEn level => .next { s with runEn := level }

/-- What can happen next to the block: a step, or a move of the host between two steps (R78, R164). -/
inductive Event where
  | coreStep
  | host (m : HostMove)
  deriving DecidableEq, Repr

/-- One event. -/
def event (e : Event) (s : State) : Host.Outcome State Fault Refusal :=
  match e with
  | .coreStep => step s
  | .host m => hostMove m s

/-- A sequence of events, stopping where the host makes no move of the spec's. -/
def events : List Event → State → Host.Outcome State Fault Refusal
  | [], s => .next s
  | e :: es, s =>
    match event e s with
    | .next t => events es t
    | .fault f => .fault f
    | .refused r => .refused r

/-- The 2-bit encoding of `run_state` on its port (R18). -/
def RunState.code : RunState → BitVec 2
  | .running => 0
  | .halted => 1
  | .faulted => 2

/-- The 3-bit encoding of `fault_code` on its port (R19). -/
def FaultCode.code : FaultCode → BitVec 3
  | .none => 0
  | .unknownOpcode => 1
  | .outOfBoundsMem => 2
  | .outOfBoundsReg => 3
  | .divisionByZero => 4

/-- The held output ports of R27. -/
structure Ports where
  /-- `run_state`. -/
  runState : BitVec 2
  /-- `fault_code`. -/
  faultCode : BitVec 3
  /-- `fault_info`. -/
  faultInfo : BitVec 9
  /-- `pc`; a free value in HALTED (R97). -/
  pc : BitVec 9
  /-- `x[0..7]`. -/
  x : Vector Byte 8
  /-- `ld_err`. -/
  ldErr : Bool
  deriving DecidableEq, Repr

/-- What the host observes (R27, R164). -/
def ports (s : State) : Ports where
  runState := s.runState.code
  faultCode := s.faultCode.code
  faultInfo := s.faultInfo
  pc := s.pc
  x := s.x
  ldErr := s.ldErr

/-- The pulse of `out_valid` with its `out_data` across one step from `s` to `t`: the appended value, if any (R22, R27). -/
def outPulse (s t : State) : Option Byte :=
  if s.out.length < t.out.length then t.out.getLast? else none

/-- The host's rendering of the output stream: one unsigned decimal integer per line, no leading zeros (R95, R164). The
line end is PRESUMED to be the line feed (log entry 7). -/
def renderOut (out : List Byte) : List Char := out.flatMap fun b => Nat.toDigits 10 b.toNat ++ ['\n']

end Sys2Proof.Machine
end

