-- ==== Sys2Proof/Machine/Loader.lean ====
section
/-! DEFINITION. The host's Loader: the program image text and the load phase (70_reset_and_hazards.md R152 to R157).
It is outside the block (00_scope.md R3); it is modelled so that launch states can be built from images. -/

namespace Sys2Proof.Machine

/-- The load-time errors, which belong to the host and not to the core (R125, R152, R154). -/
inductive LoadError where
  | fileNotFound
  | malformedToken (token : List Char)
  | outOfBounds (addr : Nat)
  deriving DecidableEq, Repr

/-- White space inside a line. PRESUMED: the spec does not list the characters (log entry 7). -/
def isSpaceChar (c : Char) : Bool := c == ' ' || c == '\t' || c == '\r' || c == '\n'

/-- Drop the first `#` and everything after it (R153). -/
def dropComment (line : List Char) : List Char := line.takeWhile (· != '#')

/-- Strip leading and trailing white space (R153). -/
def strip (line : List Char) : List Char :=
  ((line.dropWhile isSpaceChar).reverse.dropWhile isSpaceChar).reverse

/-- The value in base 2 of a string of `0` and `1`, leftmost digit most significant, on from the value `acc` (R5, R153). -/
def binaryValue (acc : Nat) : List Char → Option Nat
  | [] => some acc
  | c :: cs =>
    if c = '0' then binaryValue (2 * acc) cs else if c = '1' then binaryValue (2 * acc + 1) cs else none

/-- One line of the image: no byte, one byte, or MalformedToken (R153, D19). -/
def parseLine (line : List Char) : Except LoadError (Option Byte) :=
  match strip (dropComment line) with
  | [] => .ok none
  | c :: cs =>
    match binaryValue 0 (c :: cs) with
    | none => .error (.malformedToken (c :: cs))
    | some v => if v ≤ 255 then .ok (some (BitVec.ofNat 8 v)) else .error (.malformedToken (c :: cs))

/-- One write of the load phase, with the host's report of a refusal (R32, R152, D20). -/
def loadByte (next : Nat) (b : Byte) (s : State) : State × Option LoadError :=
  let t := memWrite next b s
  (t, if t.ldErr then some (.outOfBounds next) else none)

/-- The bytes of an image to ascending addresses from `next`, up to the first error (R152). -/
def loadBytes (next : Nat) : List Byte → State → State × Option LoadError
  | [], s => (s, none)
  | b :: bs, s =>
    match loadByte next b s with
    | (t, none) => loadBytes (next + 1) bs t
    | (t, some e) => (t, some e)

/-- The lines of an image text, up to the first error: the cells already written stay (R153, R154). -/
def loadLines (next : Nat) : List (List Char) → State → State × Option LoadError
  | [], s => (s, none)
  | line :: lines, s =>
    match parseLine line with
    | .error e => (s, some e)
    | .ok none => loadLines next lines s
    | .ok (some b) =>
      match loadByte next b s with
      | (t, none) => loadLines (next + 1) lines t
      | (t, some e) => (t, some e)

/-- Before the load: reset, with `run_en` held at 0 (R152, R164). -/
def beforeLoad (s : State) : State := { hostReset s with runEn := false }

/-- After the load: `run_en` to 1 only if it ended without error (R152, R164). -/
def startIfLoaded (r : State × Option LoadError) : State × Option LoadError :=
  match r with
  | (t, none) => ({ t with runEn := true }, none)
  | (t, some e) => (t, some e)

/-- Reset, load an image of bytes from address 0, start (R152, R157). -/
def launch (image : List Byte) (s : State) : State × Option LoadError :=
  startIfLoaded (loadBytes 0 image (beforeLoad s))

/-- Reset, load an image text, start; `none` is a file that does not exist (R153, R154). -/
def launchFile (file : Option (List (List Char))) (s : State) : State × Option LoadError :=
  match file with
  | none => (beforeLoad s, some .fileNotFound)
  | some lines => startIfLoaded (loadLines 0 lines (beforeLoad s))

end Sys2Proof.Machine
end

