-- ==== Sys2Proof/Safety.lean ====
section
/-! DEFINITION. What counts as a good state and a good end of a run (10_state.md R16, R19; 60_exceptions.md R120 to R124,
R132; 70_reset_and_hazards.md R158). -/

namespace Sys2Proof.Safety

open Sys2Proof.Machine

/-- `M[pc + k]`: the byte at distance `k` from the opcode (R34). -/
def cell (s : State) (k : Nat) : Byte := Memory.read s.mem (s.pc.toNat + k)

/-- The fault record tells the truth about the memory and the registers it was taken in (R19, R121 to R124): `pc` still
holds the address of the faulting instruction, and no cell and no register has changed since. -/
def recordTrue (s : State) : Bool :=
  match s.faultCode with
  | .none => decide (s.faultInfo = 0)
  | .unknownOpcode =>
    decide (s.pc.toNat < 256) && decide (lookup (cell s 0) = none) && decide (s.faultInfo.toNat = (cell s 0).toNat)
  | .outOfBoundsMem => decide (254 ≤ s.pc.toNat) && decide (s.faultInfo = 256)
  | .outOfBoundsReg =>
    decide (8 ≤ s.faultInfo.toNat) &&
      (decide (s.faultInfo.toNat = (cell s 1).toNat) || decide (s.faultInfo.toNat = (cell s 2).toNat))
  | .divisionByZero =>
    decide (cell s 0 = 0xA3) && decide (s.faultInfo.toNat = (cell s 2).toNat) && decide (s.x[s.faultInfo.toNat]? = some 0)

/-- The invariant of every reachable state: memory in canonical form; `pc` at most 256 unless HALTED, where it is any
value (R16, R97); a fault recorded exactly in FAULTED (R19); the record true. -/
abbrev Inv (s : State) : Prop :=
  s.mem.wf = true ∧ (s.runState ≠ .halted → s.pc.toNat ≤ 256) ∧
    (s.faultCode ≠ .none ↔ s.runState = .faulted) ∧ recordTrue s = true

/-- A run has ended (R158). -/
abbrev Ended (s : State) : Prop := s.runState ≠ .running

/-- A run has succeeded (R132, R158). -/
abbrev Succeeded (s : State) : Prop := s.runState = .halted

/-- A state no fault has been raised in. -/
abbrev Safe (s : State) : Prop := s.runState ≠ .faulted

/-- Everything the host gives an exit status to: the keys of `EXIT_STATUS` (R132, D21). -/
inductive EndReason where
  | halted
  | fault (c : FaultCode)
  | fileNotFound
  | malformedToken
  | loadOutOfBounds
  deriving DecidableEq, Repr

/-- What the source asks of `EXIT_STATUS`: 0 on success, and distinct non-zero numbers otherwise (R132, D21; log entry 8). -/
def ExitStatusOk (f : EndReason → Int) : Prop :=
  f .halted = 0 ∧ Function.Injective f

/-- How a run ended, for the host's exit status; none while it has not (R132, R158). -/
def endReason (s : State) : Option EndReason :=
  match s.runState with
  | .running => none
  | .halted => some .halted
  | .faulted => some (.fault s.faultCode)

/-- How a load ended, for the host's exit status (R132, R154). -/
def loadEndReason (e : LoadError) : EndReason :=
  match e with
  | .fileNotFound => .fileNotFound
  | .malformedToken _ => .malformedToken
  | .outOfBounds _ => .loadOutOfBounds

end Sys2Proof.Safety
end

