-- ==== Sys2Proof/WellFormed.lean ====
section
/-! DEFINITION. Which instructions a program may hold without faulting on a register index (10_state.md R14,
70_reset_and_hazards.md R155 (d)). The decoder accepts the others too: they are defined instructions (R57). -/

namespace Sys2Proof

/-- An operand byte that names a register: below 8, by the whole byte (R14, R53). -/
def isRegIndex (b : Byte) : Bool := decide (b.toNat < 8)

/-- Every operand byte used as a register index names a register. LDI's `opB` is an immediate and is not checked. -/
def Instr.wellFormed : Instr → Bool
  | .ldi opA _ => isRegIndex opA
  | .prn opA => isRegIndex opA
  | .hlt => true
  | .add opA opB => isRegIndex opA && isRegIndex opB
  | .sub opA opB => isRegIndex opA && isRegIndex opB
  | .mul opA opB => isRegIndex opA && isRegIndex opB
  | .div opA opB => isRegIndex opA && isRegIndex opB

end Sys2Proof
end

