-- ==== Sys2Proof/Certificates/Slice0/Obligations.lean ====
section
/-! DEFINITION. The statements for the provers. The reader's words for a step of a state `s`: `cell s k` is the byte at
`pc + k`, `regAt s b` the register an operand byte names, `faulted s c n` the state after the fault entry of R126. -/

namespace Sys2Proof.Stated

open Sys2Proof Sys2Proof.Machine Sys2Proof.Safety

/-- `x[b]` for an operand byte below 8 (0 above, where no rule reads it). -/
def regAt (s : State) (b : Byte) : Byte := (s.x[b.toNat]?).getD 0

/-- The state after `raise` (R126): three fields written, all else as it was. -/
def faulted (s : State) (c : FaultCode) (n : BitVec 9) : State :=
  { s with runState := .faulted, faultCode := c, faultInfo := n }

/-- A step is taken: RUNNING, and `run_en` is 1 (R70). -/
def Stepping (s : State) : Prop := s.runState = .running ∧ s.runEn = true

/-- `BitVec 8` as `fault_info`. -/
def info (b : Byte) : BitVec 9 := BitVec.ofNat 9 b.toNat

/-- The seven opcode bytes of R54, written out. -/
def definedBytes : List Byte := [0x82, 0x47, 0x01, 0xA0, 0xA1, 0xA2, 0xA3]

/-- The opcode bytes of the four ALU instructions (R54). -/
def aluByte : AluOp → Byte
  | .add => 0xA0
  | .sub => 0xA1
  | .mul => 0xA2
  | .div => 0xA3

/-- The result columns of R110 on natural numbers 0 to 255. -/
def aluRule (op : AluOp) (a b : Nat) : Nat :=
  match op with
  | .add => (a + b) % 256
  | .sub => (a + 256 - b) % 256
  | .mul => a * b % 256
  | .div => a / b

/-- The memory bytes a decoder at `pc` can see. -/
def bytesFrom (s : State) : List Byte := (List.range (256 - s.pc.toNat)).map (cell s)

/-- The operand byte that names an instruction's destination register (R13). -/
def destination : Instr → Option Byte
  | .ldi opA _ => some opA
  | .prn _ => none
  | .hlt => none
  | .add opA _ => some opA
  | .sub opA _ => some opA
  | .mul opA _ => some opA
  | .div opA _ => some opA

/-- The first condition a step meets in the order of R127, with its record; none if it meets none. -/
def firstFault (s : State) : Option (FaultCode × BitVec 9) :=
  let ir := cell s 0
  let isAlu : Prop := ir = 0xA0 ∨ ir = 0xA1 ∨ ir = 0xA2 ∨ ir = 0xA3
  if 256 ≤ s.pc.toNat then some (.outOfBoundsMem, s.pc)
  else if ir ∉ definedBytes then some (.unknownOpcode, info ir)
  else if ir = 0x01 then none
  else if s.pc.toNat = 255 then some (.outOfBoundsMem, 256)
  else if ir ≠ 0x47 ∧ s.pc.toNat = 254 then some (.outOfBoundsMem, 256)
  else if 8 ≤ (cell s 1).toNat then some (.outOfBoundsReg, info (cell s 1))
  else if isAlu ∧ 8 ≤ (cell s 2).toNat then some (.outOfBoundsReg, info (cell s 2))
  else if ir = 0xA3 ∧ regAt s (cell s 2) = 0 then some (.divisionByZero, info (cell s 2))
  else none

/-- The eight binary digits of a byte, most significant first (R5). -/
def digits (b : Byte) : List Char := (List.range 8).map fun k => if b.getMsbD k then '1' else '0'

/-- The bytes an image text loads: one for each line that holds a token, in file order, up to the first malformed token
(R153). -/
def bytesOfLines : List (List Char) → List Byte
  | [] => []
  | line :: lines =>
    match parseLine line with
    | .ok (some b) => b :: bytesOfLines lines
    | .ok none => bytesOfLines lines
    | .error _ => []

/-- A string of binary digits. -/
def bitChars (ds : List Bool) : List Char := ds.map fun d => if d then '1' else '0'

/-- Its value, leftmost digit most significant (R5, R153). -/
def bitValue (ds : List Bool) : Nat := ds.foldl (fun n d => 2 * n + d.toNat) 0

end Sys2Proof.Stated

open Sys2Proof Sys2Proof.Machine Sys2Proof.Safety Sys2Proof.Stated

/-! ### Reset, load, launch -/

/-- R26: the table of reset values. -/
def Obligations.ResetValues : Prop :=
  (∀ i : Fin 8, State.reset.x[i] = 0) ∧ State.reset.pc = 0 ∧ State.reset.runState = .running ∧
    State.reset.faultCode = .none ∧ State.reset.faultInfo = 0 ∧
    (∀ a, a < 256 → Memory.read State.reset.mem a = 0) ∧ State.reset.out = []

/-- The invariant holds right after reset. -/
def Obligations.ResetMeetsInvariant : Prop := Inv State.reset

/-- R150: reset is a move in any state, with every value of R26, and the only event that leaves HALTED or FAULTED. -/
def Obligations.ResetIsTheOnlyWayOut : Prop :=
  (∀ s : State, ∃ t, hostMove .reset s = .next t ∧ (∀ i : Fin 8, t.x[i] = 0) ∧ t.pc = 0 ∧ t.runState = .running ∧
      t.faultCode = .none ∧ t.faultInfo = 0 ∧ (∀ a, a < 256 → Memory.read t.mem a = 0) ∧ t.out = []) ∧
    ∀ (e : Event) (s t : State), Ended s → event e s = .next t → t.runState ≠ s.runState → e = .host .reset

/-- R32 over the load port: an address below 256 changes that cell alone, any other is refused. That an accepted write
clears `ld_err` is the model's choice (log entry 4). -/
def Obligations.LoadPortWritesOneCell : Prop :=
  ∀ (s : State) (addr : BitVec 9) (v : Byte), inLoadPhase s = true → s.mem.wf = true →
    (addr.toNat < 256 → ∃ m, hostMove (.load addr v) s = .next { s with mem := m, ldErr := false } ∧
      ∀ a, Memory.read m a = if a = addr.toNat then v else Memory.read s.mem a) ∧
    (256 ≤ addr.toNat → hostMove (.load addr v) s = .next { s with ldErr := true })

/-- R45, R164: the model gives the host no load write outside the load phase (its reading, log entry 5). -/
def Obligations.LoadOutsideLoadPhaseRefused : Prop :=
  ∀ (s : State) (addr : BitVec 9) (v : Byte), inLoadPhase s = false →
    hostMove (.load addr v) s = .refused .loadOutsideLoadPhase

/-- R157, R152: launching an image from any earlier state gives the launch state. That `run_en` is 1 after it is R152's
start of the run; that it is a field of the state is the model's choice (log entry 3). -/
def Obligations.LaunchGivesLaunchState : Prop :=
  ∀ (image : List Byte) (s : State), image.length ≤ 256 → ∃ t, launch image s = (t, none) ∧
    (∀ k, (h : k < image.length) → Memory.read t.mem k = image[k]) ∧
    (∀ k, image.length ≤ k → k ≤ 255 → Memory.read t.mem k = 0) ∧
    (∀ i : Fin 8, t.x[i] = 0) ∧ t.pc = 0 ∧ t.runState = .running ∧ t.faultCode = .none ∧ t.faultInfo = 0 ∧
    t.out = [] ∧ t.runEn = true

/-- R152, D20: byte 256 of an over-long image is refused, the host reports it, and the run does not start
(`run_en` stays 0: a field of the state by log entry 3). -/
def Obligations.OverlongImageDoesNotStart : Prop :=
  ∀ (image : List Byte) (s : State), 256 < image.length → ∃ t, launch image s = (t, some (.outOfBounds 256)) ∧
    (∀ k, (h : k < image.length) → k < 256 → Memory.read t.mem k = image[k]) ∧
    t.runState = .running ∧ t.runEn = false ∧ t.ldErr = true ∧ t.pc = 0 ∧ t.out = []

/-- R5, R153: the token that writes a byte in binary loads that byte, with or without white space and a comment after
it. -/
def Obligations.BinaryTokenLoadsItsByte : Prop :=
  ∀ (b : Byte) (comment : List Char),
    parseLine (digits b) = .ok (some b) ∧ parseLine (digits b ++ ' ' :: '#' :: comment) = .ok (some b)

/-- R153: a line with only white space before its comment loads nothing; a token of binary digits of any length, with white
space around it and a comment after it or not, loads its value if that fits a byte, and is malformed otherwise. Which
characters are white space is PRESUMED (log entry 7). -/
def Obligations.LineLoadsItsTokenOrNothing : Prop :=
  (∀ line : List Char, (∀ c ∈ dropComment line, isSpaceChar c = true) → parseLine line = .ok none) ∧
  ∀ (ds : List Bool) (before after tail : List Char), ds ≠ [] → (∀ c ∈ before, isSpaceChar c = true) →
    (∀ c ∈ after, isSpaceChar c = true) → (tail = [] ∨ ∃ comment, tail = '#' :: comment) →
    parseLine (before ++ bitChars ds ++ after ++ tail) =
      if bitValue ds ≤ 255 then .ok (some (BitVec.ofNat 8 (bitValue ds))) else .error (.malformedToken (bitChars ds))

/-- R153, R154: a line with a character before the comment that is neither a binary digit nor white space is
malformed, and the error names the token: what is left of the line without its comment and the white space around it.
Which characters are white space is PRESUMED, the model's choice and not the spec's (log entry 7). -/
def Obligations.NonBinaryTokenIsMalformed : Prop :=
  ∀ (line : List Char) (c : Char), c ∈ dropComment line → isSpaceChar c = false → c ≠ '0' → c ≠ '1' →
    parseLine line = .error (.malformedToken (strip (dropComment line)))

/-- R152, R153, R157: launching an image text whose lines all parse, to at most 256 bytes, gives the launch state of those
bytes: one byte for each line that holds a token, from address 0, in file order, a line without a token taking no
address. `run_en` as in `LaunchGivesLaunchState` (log entry 3). -/
def Obligations.FileLaunchGivesLaunchState : Prop :=
  ∀ (lines : List (List Char)) (parsed : List (Option Byte)) (s : State), lines.map parseLine = parsed.map .ok →
    (parsed.filterMap id).length ≤ 256 → ∃ t, launchFile (some lines) s = (t, none) ∧
      (∀ a, Memory.read t.mem a = ((parsed.filterMap id)[a]?).getD 0) ∧
      (∀ i : Fin 8, t.x[i] = 0) ∧ t.pc = 0 ∧ t.runState = .running ∧ t.faultCode = .none ∧ t.faultInfo = 0 ∧
      t.out = [] ∧ t.runEn = true

/-- R152 to R154: which load-time error a file ends in: a missing file, FileNotFound; otherwise the first line that is
malformed, with its token, whatever follows; but byte 256, where it comes first, as OutOfBoundsAccess. -/
def Obligations.FirstLoadErrorIsReported : Prop :=
  (∀ s : State, ∃ t, launchFile none s = (t, some .fileNotFound)) ∧
  ∀ (good rest : List (List Char)) (parsed : List (Option Byte)) (s : State), good.map parseLine = parsed.map .ok →
    ((parsed.filterMap id).length ≤ 256 → ∀ (bad : List Char) (e : LoadError), parseLine bad = .error e →
      ∃ t, launchFile (some (good ++ bad :: rest)) s = (t, some e)) ∧
    (256 < (parsed.filterMap id).length → ∃ t, launchFile (some (good ++ rest)) s = (t, some (.outOfBounds 256)))

/-- R154: after any load-time error the core is in the reset state apart from the cells already written, and it will take
no step: the bytes before the error, 256 of them at most, stand from address 0 and every other cell reads 0 (every cell,
after a missing file), `run_en` is 0 (log entry 3), and a step changes nothing (log entry 2). -/
def Obligations.LoadErrorNeverStarts : Prop :=
  ∀ (file : Option (List (List Char))) (s t : State) (e : LoadError), launchFile file s = (t, some e) →
    (∀ i : Fin 8, t.x[i] = 0) ∧ t.pc = 0 ∧ t.runState = .running ∧ t.faultCode = .none ∧ t.faultInfo = 0 ∧
      t.out = [] ∧ t.runEn = false ∧ step t = .next t ∧
      ∀ a, Memory.read t.mem a = (((bytesOfLines (file.getD [])).take 256)[a]?).getD 0

/-! ### Memory and encoding -/

/-- Memories in canonical form that read alike everywhere are equal data. -/
def Obligations.EqualReadsMakeEqualMemories : Prop :=
  ∀ m n : Memory, m.wf = true → n.wf = true → (∀ a, Memory.read m a = Memory.read n a) → m = n

/-- R51, R53, R54: decoding an encoded instruction gives it back, with every operand byte, and leaves the rest. -/
def Obligations.DecodeOfEncodeIsIdentity : Prop :=
  ∀ (i : Instr) (rest : List Byte), decode (encode i ++ rest) = .ok (i, rest)

/-- R50 to R54: whatever decodes is the encoding of what it decodes to: no byte is dropped and no two strings of one
length mean the same. -/
def Obligations.DecodedBytesAreTheEncoding : Prop :=
  ∀ (bytes rest : List Byte) (i : Instr), decode bytes = .ok (i, rest) → bytes = encode i ++ rest

/-- Words written out from the tables of R51, R54 and R58, one per instruction, decode to what they stand for. -/
def Obligations.SpecWordsDecode : Prop :=
  decode [0b10000010, 0b00000000, 0b00001000] = .ok (.ldi 0 8, []) ∧
  decode [0b01000111, 0b00000000] = .ok (.prn 0, []) ∧
  decode [0b00000001] = .ok (.hlt, []) ∧
  decode [0b10100000, 0b00000110, 0b00000001] = .ok (.add 6 1, []) ∧
  decode [0b10100001, 0b00000101, 0b00000011] = .ok (.sub 5 3, []) ∧
  decode [0b10100010, 0b00000111, 0b00000010] = .ok (.mul 7 2, []) ∧
  decode [0b10100011, 0b00000010, 0b00000100] = .ok (.div 2 4, [])

/-- R55: 249 of the 256 opcode bytes are unknown, 63, 63, 59 and 64 of them by operand count 0, 1, 2 and 3. -/
def Obligations.UnknownOpcodeCounts : Prop :=
  let unknown := ((List.range 256).map (BitVec.ofNat 8)).filter fun ir => lookup ir = none
  unknown.length = 249 ∧ (unknown.filter fun ir => nops ir = 0).length = 63 ∧
    (unknown.filter fun ir => nops ir = 1).length = 63 ∧ (unknown.filter fun ir => nops ir = 2).length = 59 ∧
    (unknown.filter fun ir => nops ir = 3).length = 64

/-! ### Each instruction completes, and what it leaves unchanged -/

/-- LDI with any register and any immediate completes: the register holds the byte, the pc has moved by 3, and no other
field of the state has changed (R90). -/
def Obligations.LdiCompletes : Prop :=
  ∀ (a : Fin 8) (v : Byte) (s : State),
    exec (.ldi (BitVec.ofNat 8 a) v) s = .next { s with x := s.x.set a v, pc := s.pc + 3 }

/-- PRN with any register completes: one value appended, the pc moved by 2, nothing else changed (R95). -/
def Obligations.PrnCompletes : Prop :=
  ∀ (a : Fin 8) (s : State),
    exec (.prn (BitVec.ofNat 8 a)) s = .next { s with out := s.out ++ [s.x[a]], pc := s.pc + 2 }

/-- HLT completes in every state: HALTED, with some pc that R97 leaves open (log entry 1: a free value, drawn at
`freeIdx`), and nothing else changed (R96). -/
def Obligations.HltCompletes : Prop :=
  ∀ s : State, ∃ p, exec .hlt s = .next { s with runState := .halted, pc := p, freeIdx := s.freeIdx + 1 }

/-- ADD, SUB and MUL with any two registers, equal ones included, complete: the result of R106 to R108 modulo 256 in
`x[op_a]`, the pc moved by 3, nothing else changed. -/
def Obligations.AddSubMulComplete : Prop :=
  ∀ (a b : Fin 8) (s : State),
    let ra := s.x[a].toNat
    let rb := s.x[b].toNat
    exec (.add (BitVec.ofNat 8 a) (BitVec.ofNat 8 b)) s =
        .next { s with x := s.x.set a (BitVec.ofNat 8 ((ra + rb) % 256)), pc := s.pc + 3 } ∧
      exec (.sub (BitVec.ofNat 8 a) (BitVec.ofNat 8 b)) s =
        .next { s with x := s.x.set a (BitVec.ofNat 8 ((ra + 256 - rb) % 256)), pc := s.pc + 3 } ∧
      exec (.mul (BitVec.ofNat 8 a) (BitVec.ofNat 8 b)) s =
        .next { s with x := s.x.set a (BitVec.ofNat 8 (ra * rb % 256)), pc := s.pc + 3 }

/-- DIV by a register that is not 0 completes: the floor quotient in `x[op_a]`, the pc moved by 3, nothing else changed
(R109). -/
def Obligations.DivCompletes : Prop :=
  ∀ (a b : Fin 8) (s : State), s.x[b] ≠ 0 →
    exec (.div (BitVec.ofNat 8 a) (BitVec.ofNat 8 b)) s =
      .next { s with x := s.x.set a (BitVec.ofNat 8 (s.x[a].toNat / s.x[b].toNat)), pc := s.pc + 3 }

/-- R14, R123: an operand byte of 8 or more used as a register index faults with that byte, `op_a` before `op_b`; LDI's
`op_b` is never checked. -/
def Obligations.RegisterIndexFaults : Prop :=
  (∀ (opA : Byte) (s : State), 8 ≤ opA.toNat →
    (∀ v, exec (.ldi opA v) s = .next (faulted s .outOfBoundsReg (info opA))) ∧
    exec (.prn opA) s = .next (faulted s .outOfBoundsReg (info opA)) ∧
    ∀ opB, exec (.add opA opB) s = .next (faulted s .outOfBoundsReg (info opA)) ∧
      exec (.sub opA opB) s = .next (faulted s .outOfBoundsReg (info opA)) ∧
      exec (.mul opA opB) s = .next (faulted s .outOfBoundsReg (info opA)) ∧
      exec (.div opA opB) s = .next (faulted s .outOfBoundsReg (info opA))) ∧
  (∀ (opA opB : Byte) (s : State), opA.toNat < 8 → 8 ≤ opB.toNat →
    exec (.add opA opB) s = .next (faulted s .outOfBoundsReg (info opB)) ∧
    exec (.sub opA opB) s = .next (faulted s .outOfBoundsReg (info opB)) ∧
    exec (.mul opA opB) s = .next (faulted s .outOfBoundsReg (info opB)) ∧
    exec (.div opA opB) s = .next (faulted s .outOfBoundsReg (info opB))) ∧
  ∀ (opA v : Byte) (s t : State), opA.toNat < 8 → exec (.ldi opA v) s = .next t → t.faultCode = s.faultCode

/-- R124: DIV with both indices in range and a zero divisor raises DivisionByZero with `op_b` and no other effect, and
no other instruction ever takes that fault. -/
def Obligations.ZeroDivisorFaults : Prop :=
  (∀ (a b : Fin 8) (s : State), s.x[b] = 0 →
    exec (.div (BitVec.ofNat 8 a) (BitVec.ofNat 8 b)) s =
      .next (faulted s .divisionByZero (info (BitVec.ofNat 8 b)))) ∧
  ∀ (i : Instr) (s t : State), exec i s = .next t → s.faultCode ≠ .divisionByZero → t.faultCode = .divisionByZero →
    ∃ opA opB : Byte, i = .div opA opB ∧ opA.toNat < 8 ∧ opB.toNat < 8 ∧ regAt s opB = 0

/-- The frame of every instruction whenever it answers a next state (R13, R76, R81, R126): all of memory reads as
before; every register but the destination keeps its value, and after a fault the destination too; the output grows by
PRN alone; `run_state` changes by HLT or by a fault alone; the record changes by a fault alone. -/
def Obligations.EveryInstructionFrame : Prop :=
  ∀ (i : Instr) (s t : State), exec i s = .next t →
    (∀ a, Memory.read t.mem a = Memory.read s.mem a) ∧ t.runEn = s.runEn ∧ t.ldErr = s.ldErr ∧
    (∀ r : Fin 8, destination i ≠ some (BitVec.ofNat 8 r) → t.x[r] = s.x[r]) ∧
    ((∀ opA, i ≠ .prn opA) → t.out = s.out) ∧ (i ≠ .hlt → t.freeIdx = s.freeIdx) ∧
    ((t.runState = s.runState ∧ t.faultCode = s.faultCode ∧ t.faultInfo = s.faultInfo) ∨
      (i = .hlt ∧ t.runState = .halted ∧ t.faultCode = s.faultCode ∧ t.faultInfo = s.faultInfo) ∨
      (t = faulted s t.faultCode t.faultInfo ∧ t.faultCode ≠ .none))

/-- R110: for every operand pair but a zero divisor there is an exact result in the range of the table, what is written
is that result modulo 256, and it differs from the exact one exactly when that leaves 0 to 255, which DIV's never
does. -/
def Obligations.AluResultsModulo256 : Prop :=
  ∀ (op : AluOp) (a b : Byte),
    (aluExact op a b = none ↔ op = .div ∧ b = 0) ∧
    ∀ r, aluExact op a b = some r →
      (narrow r).toNat = aluRule op a.toNat b.toNat ∧ ((narrow r).toNat : Int) = r % 256 ∧
      (((narrow r).toNat : Int) = r ↔ 0 ≤ r ∧ r ≤ 255) ∧
      (op = .add → r = a.toNat + b.toNat) ∧ (op = .sub → r = (a.toNat : Int) - b.toNat) ∧
      (op = .mul → r = (a.toNat : Int) * b.toNat) ∧
      (op = .div → r = ((a.toNat / b.toNat : Nat) : Int) ∧ 0 ≤ r ∧ r ≤ 255)

/-- R155 (d): an instruction whose register operands all name registers never takes a register index fault. -/
def Obligations.WellFormedNeverFaultsOnIndex : Prop :=
  ∀ (i : Instr) (s t : State), i.wellFormed = true → exec i s = .next t → s.faultCode ≠ .outOfBoundsReg →
    t.faultCode ≠ .outOfBoundsReg

/-! ### One step -/

/-- R70: no step is taken outside RUNNING or while `run_en` is 0: nothing changes. That `step` says so by answering the
unchanged state is the model's choice (log entry 2). -/
def Obligations.NoStepUnlessEnabled : Prop :=
  ∀ s : State, ¬ Stepping s → step s = .next s

/-- R71, R76: where a step is taken and the bytes at `pc` decode, the step is that instruction, pc advance included;
nothing stands around it. -/
def Obligations.StepRunsTheDecodedInstruction : Prop :=
  ∀ (s : State) (i : Instr) (rest : List Byte), Stepping s → decode (bytesFrom s) = .ok (i, rest) → step s = exec i s

/-- R155 (b), (d), (e): where the bytes at `pc` hold a whole instruction whose register operands name registers, and a
divisor that is not 0, the step raises no fault. -/
def Obligations.CleanInstructionIsSafe : Prop :=
  ∀ (s : State) (i : Instr) (rest : List Byte), Stepping s → decode (bytesFrom s) = .ok (i, rest) →
    i.wellFormed = true → (∀ opA opB, i = .div opA opB → regAt s opB ≠ 0) → ∃ t, step s = .next t ∧ Safe t

/-- A word placed at `pc` is the instruction the next step runs, and placing it changes only memory and `run_en`. Placing a
word at `pc` in any RUNNING state is the model's own operation (DESIGN CHOICE, log entry 9): it stands for the host's load,
which the spec gives only from address 0 and before the first step (R152, R164). -/
def Obligations.PlacedWordIsRun : Prop :=
  ∀ (s : State) (nbits w : Nat) (i : Instr), s.runState = .running → s.mem.wf = true → s.pc.toNat ≤ 253 →
    decodeTableWord nbits w = some i →
    step (s.withFetchWord nbits w) = exec i (s.withFetchWord nbits w) ∧
      ∃ m, s.withFetchWord nbits w = { s with mem := m, runEn := true }

/-- R90 whole: a step at an LDI. -/
def Obligations.LdiStep : Prop :=
  ∀ s : State, Stepping s → s.pc.toNat < 256 → cell s 0 = 0b10000010 →
    step s = .next (
      if 254 ≤ s.pc.toNat then faulted s .outOfBoundsMem 256
      else if 8 ≤ (cell s 1).toNat then faulted s .outOfBoundsReg (info (cell s 1))
      else { s with x := s.x.setIfInBounds (cell s 1).toNat (cell s 2), pc := s.pc + 3 })

/-- R95 whole: a step at a PRN, with the pulse on the output port. -/
def Obligations.PrnStep : Prop :=
  ∀ s : State, Stepping s → s.pc.toNat < 256 → cell s 0 = 0b01000111 →
    if s.pc.toNat = 255 then step s = .next (faulted s .outOfBoundsMem 256)
    else if 8 ≤ (cell s 1).toNat then step s = .next (faulted s .outOfBoundsReg (info (cell s 1)))
    else ∃ t, step s = .next t ∧ t = { s with out := s.out ++ [regAt s (cell s 1)], pc := s.pc + 2 } ∧
      outPulse s t = some (regAt s (cell s 1))

/-- R96: a step at a HLT, at any address up to 255, halts and changes nothing else the spec gives the machine but the pc,
which R97 leaves open. That the pc is a free value drawn at the model's own counter `freeIdx`, which the step moves on by
one, is the model's choice and no part of R96 (DESIGN CHOICE, log entry 1). After the step none may be taken, at either
level of `run_en`, whatever the following bytes are; and HALTED is entered at no other byte. -/
def Obligations.HltStep : Prop :=
  (∀ s : State, Stepping s → s.pc.toNat < 256 → cell s 0 = 0b00000001 →
    ∃ t p, step s = .next t ∧ t = { s with runState := .halted, pc := p, freeIdx := s.freeIdx + 1 } ∧
      ∀ level, canStep { t with runEn := level } = false) ∧
  ∀ s t : State, s.runState = .running → step s = .next t → t.runState = .halted →
    s.runEn = true ∧ s.pc.toNat < 256 ∧ cell s 0 = 0b00000001

/-- R105 to R109 whole: a step at an ALU instruction, every check in order, then the result in `x[op_a]`. -/
def Obligations.AluStep : Prop :=
  ∀ (op : AluOp) (s : State), Stepping s → s.pc.toNat < 256 → cell s 0 = aluByte op →
    step s = .next (
      if 254 ≤ s.pc.toNat then faulted s .outOfBoundsMem 256
      else if 8 ≤ (cell s 1).toNat then faulted s .outOfBoundsReg (info (cell s 1))
      else if 8 ≤ (cell s 2).toNat then faulted s .outOfBoundsReg (info (cell s 2))
      else if op = .div ∧ regAt s (cell s 2) = 0 then faulted s .divisionByZero (info (cell s 2))
      else { s with
        x := s.x.setIfInBounds (cell s 1).toNat
          (BitVec.ofNat 8 (aluRule op (regAt s (cell s 1)).toNat (regAt s (cell s 2)).toNat))
        pc := s.pc + 3 })

/-- R55, R121: every opcode byte that is none of the seven faults with itself as the record; no operand byte is read and
nothing else changes. -/
def Obligations.UnknownOpcodeFaults : Prop :=
  ∀ s : State, Stepping s → s.pc.toNat < 256 → cell s 0 ∉ definedBytes →
    step s = .next (faulted s .unknownOpcode (info (cell s 0)))

/-- R127: a step raises exactly the first fault it meets, and none where it meets none. -/
def Obligations.FirstFaultWins : Prop :=
  ∀ s : State, Stepping s →
    match firstFault s with
    | some (c, n) => step s = .next (faulted s c n)
    | none => ∃ t, step s = .next t ∧ t.runState ≠ .faulted ∧ t.faultCode = s.faultCode ∧ t.faultInfo = s.faultInfo

/-- R78, R126: a step that ends FAULTED has written the record and `run_state` and nothing else, and the next step changes
nothing (log entry 2). -/
def Obligations.FaultsArePrecise : Prop :=
  ∀ s t : State, Stepping s → step s = .next t → t.runState = .faulted →
    t.faultCode ≠ .none ∧ t = faulted s t.faultCode t.faultInfo ∧ step t = .next t

/-- R130: in FAULTED no step may be taken, and whatever steps and host moves follow, in any number, the core stays FAULTED
with the same record until the host resets it. -/
def Obligations.FaultRecordIsWrittenOnce : Prop :=
  ∀ s : State, s.runState = .faulted → canStep s = false ∧
    ∀ (es : List Event) (t : State), .host .reset ∉ es → events es s = .next t →
      t.runState = .faulted ∧ t.faultCode = s.faultCode ∧ t.faultInfo = s.faultInfo

/-- R77: a step that completes in RUNNING moves the pc by exactly one plus bits 7:6 of its opcode byte, without wrap; a
step that faults leaves it. After HLT nothing is said (R97). -/
def Obligations.PcAdvancesByWidth : Prop :=
  ∀ s t : State, Stepping s → step s = .next t →
    (t.runState = .running → t.pc.toNat = s.pc.toNat + (1 + ((cell s 0 >>> 6) &&& 3).toNat) ∧ t.pc.toNat ≤ 256) ∧
    (t.runState = .faulted → t.pc = s.pc)

/-- R15: the pc is never decremented by a step that does not halt. -/
def Obligations.PcNeverDecreases : Prop :=
  ∀ s t : State, step s = .next t → t.runState ≠ .halted → s.pc.toNat ≤ t.pc.toNat

/-- R13: a step changes at most the register that `op_a` names, and only at an LDI or an ALU instruction. -/
def Obligations.StepWritesOnlyItsDestination : Prop :=
  ∀ (s t : State) (r : Fin 8), step s = .next t → t.x[r] ≠ s.x[r] →
    cell s 0 ∈ [0x82#8, 0xA0#8, 0xA1#8, 0xA2#8, 0xA3#8] ∧ (cell s 1).toNat = r.val

/-- R22: `out` is empty at reset; a step that is a PRN and completes appends the register's value, in one pulse on the
output port; any other step leaves `out` and gives no pulse; and so does every move of the host but reset, which empties
it; and no instruction reads it: with any other output behind it a step appends the same and does the same to every other
field. -/
def Obligations.OutputOnlyFromPrn : Prop :=
  State.reset.out = [] ∧
  (∀ s t : State, step s = .next t →
    if s.runState = .running ∧ t.runState = .running ∧ s.runEn = true ∧ cell s 0 = 0x47 then
      (cell s 1).toNat < 8 ∧ t.out = s.out ++ [regAt s (cell s 1)] ∧ outPulse s t = some (regAt s (cell s 1))
    else t.out = s.out ∧ outPulse s t = none) ∧
  (∀ (m : HostMove) (s t : State), hostMove m s = .next t → t.out = if m = .reset then [] else s.out) ∧
  ∀ s t : State, step s = .next t →
    ∃ new, t.out = s.out ++ new ∧ ∀ o, step { s with out := o } = .next { t with out := o ++ new }

/-- R37: a step depends on memory only through its opcode byte and, for a defined opcode, its operand bytes: with any
other memory that agrees there, it does the same. -/
def Obligations.StepReadsOnlyItsInstruction : Prop :=
  ∀ (s t : State) (m : Memory),
    Memory.read m s.pc.toNat = cell s 0 →
    (cell s 0 ∈ definedBytes → ∀ k, 1 ≤ k → k ≤ ((cell s 0 >>> 6) &&& 3).toNat →
      Memory.read m (s.pc.toNat + k) = cell s k) →
    step s = .next t → step { s with mem := m } = .next { t with mem := m }

/-- R97, U1: the model's own counter (log entry 1) reaches nothing but itself and the pc after HLT: with any other counter
the step does the same in every other field. -/
def Obligations.FreeValueOnlyInHaltedPc : Prop :=
  ∀ (s t : State) (n : Nat), step s = .next t →
    ∃ p k, step { s with freeIdx := n } = .next { t with pc := p, freeIdx := k } ∧ (t.runState ≠ .halted → p = t.pc)

/-! ### The whole machine -/

/-- The machine never stops short: `step` answers a next state in every state, a raised fault included (R71, R126). Where no
step is taken (HALTED, FAULTED, `run_en` 0: R70) that it answers a next state, the state unchanged, is the model's choice
(DESIGN CHOICE, log entry 2). -/
def Obligations.EveryStepAnswersNext : Prop := ∀ s : State, ∃ t, step s = .next t

/-- Every step keeps the invariant, from every state that meets it, reachable or not. -/
def Obligations.StepKeepsInvariant : Prop :=
  ∀ s t : State, Inv s → step s = .next t → Inv t

/-- Every move of the host keeps the invariant. -/
def Obligations.HostMovesKeepInvariant : Prop :=
  ∀ (m : HostMove) (s t : State), Inv s → hostMove m s = .next t → Inv t

/-- The invariant holds after every sequence of steps and host moves from reset. -/
def Obligations.ReachableStatesMeetInvariant : Prop :=
  ∀ (es : List Event) (t : State), events es State.reset = .next t → Inv t

/-- R36, R43, R81: memory is constant over a run of any length. -/
def Obligations.MemoryIsConstantOverARun : Prop :=
  ∀ (k : Nat) (s t : State), Sys2Proof.core.run k s = .next t → t.mem = s.mem

/-- R79, from every state and not the launch state alone: while `run_en` stays 1 every run ends within 129 steps, and at
most 128 of them complete in RUNNING. The spec marks the bound as derived from R72, R77 and R54. -/
def Obligations.EveryRunEnds : Prop :=
  ∀ s : State, s.runEn = true →
    (∃ k t, k ≤ 129 ∧ Sys2Proof.core.run k s = .next t ∧ (t.runState = .halted ∨ t.runState = .faulted)) ∧
    ∀ (k : Nat) (t : State), Sys2Proof.core.run k s = .next t → t.runState = .running → k ≤ 128

/-- R45, R152: the first step a core in the load phase's state takes ends the load phase: from then on the model gives
the host no load write, whatever the level of `run_en` (the model's reading, log entry 5). -/
def Obligations.FirstStepEndsLoadPhase : Prop :=
  ∀ (s t : State) (level : Bool), Stepping s → step s = .next t → inLoadPhase { t with runEn := level } = false

/-! ### What the host sees -/

/-- R18, R19: the encodings on the ports. -/
def Obligations.PortEncodings : Prop :=
  RunState.running.code.toNat = 0 ∧ RunState.halted.code.toNat = 1 ∧ RunState.faulted.code.toNat = 2 ∧
    FaultCode.none.code.toNat = 0 ∧ FaultCode.unknownOpcode.code.toNat = 1 ∧ FaultCode.outOfBoundsMem.code.toNat = 2 ∧
    FaultCode.outOfBoundsReg.code.toNat = 3 ∧ FaultCode.divisionByZero.code.toNat = 4

/-- R132, D21: under any `EXIT_STATUS` that meets the constraints (an argument, log entry 8), an ended run
exits with 0 exactly when HALTED, and different fault codes exit differently. -/
def Obligations.ExitZeroExactlyOnHalt : Prop :=
  ∀ (f : EndReason → Int) (s t : State), ExitStatusOk f →
    ((endReason s).map f = some 0 ↔ Succeeded s) ∧
    (s.runState = .faulted → t.runState = .faulted → (endReason s).map f = (endReason t).map f →
      s.faultCode = t.faultCode)
end

