-- ==== Sys2Proof/Laws/Decode.lean ====
section
/-! SUPPORT. The opcode table's laws, and what the decoder's stages can answer. -/

namespace Sys2Proof

@[simp] theorem lookup_byte (op : Opcode) : lookup op.byte = some op := by cases op <;> rfl

/-- The table has one entry per opcode and one opcode per entry (R54). -/
theorem lookup_eq_some_iff {ir : Byte} {op : Opcode} : lookup ir = some op ↔ ir = op.byte := by
  constructor
  · intro h
    unfold lookup at h
    split at h <;> cases h <;> rfl
  · rintro rfl
    exact lookup_byte op

/-- The operand counts of the table (R54). -/
theorem nops_byte (op : Opcode) :
    nops op.byte = match op with | .hlt => 0 | .prn => 1 | _ => 2 := by cases op <;> rfl

@[simp] theorem nops_ldi : nops Opcode.ldi.byte = 2 := rfl
@[simp] theorem nops_prn : nops Opcode.prn.byte = 1 := rfl
@[simp] theorem nops_hlt : nops Opcode.hlt.byte = 0 := rfl
@[simp] theorem nops_add : nops Opcode.add.byte = 2 := rfl
@[simp] theorem nops_sub : nops Opcode.sub.byte = 2 := rfl
@[simp] theorem nops_mul : nops Opcode.mul.byte = 2 := rfl
@[simp] theorem nops_div : nops Opcode.div.byte = 2 := rfl

@[simp] theorem opcode_withOperands (op : Opcode) (a b : Byte) : (op.withOperands a b).opcode = op := by
  cases op <;> rfl

theorem nops_byte_le (op : Opcode) : nops op.byte ≤ 2 := by cases op <;> decide

/-- Everything the decoder's stages can answer: an unreadable opcode byte, an unknown opcode, an unreadable operand byte
the opcode asks for, or the instruction; in this order (R71 to R75). -/
theorem decodeWith_cases {ε : Type} (read : Nat → Except ε Byte) (unknown : Byte → ε) :
    (∃ e, read 0 = .error e ∧ decodeWith read unknown = .error e) ∨
    (∃ ir, read 0 = .ok ir ∧ lookup ir = none ∧ decodeWith read unknown = .error (unknown ir)) ∨
    (∃ op : Opcode, read 0 = .ok op.byte ∧ 1 ≤ nops op.byte ∧ ∃ e, read 1 = .error e ∧ decodeWith read unknown = .error e) ∨
    (∃ op : Opcode, read 0 = .ok op.byte ∧ 2 ≤ nops op.byte ∧ ∃ a, read 1 = .ok a ∧
      ∃ e, read 2 = .error e ∧ decodeWith read unknown = .error e) ∨
    (∃ (op : Opcode) (a b : Byte), read 0 = .ok op.byte ∧ operandByte (decide (1 ≤ nops op.byte)) (read 1) = .ok a ∧
      operandByte (decide (2 ≤ nops op.byte)) (read 2) = .ok b ∧
      decodeWith read unknown = .ok (op.withOperands a b)) := by
  unfold decodeWith
  cases h0 : read 0 with
  | error e => exact .inl ⟨e, rfl, rfl⟩
  | ok ir =>
    cases hl : lookup ir with
    | none => exact .inr (.inl ⟨ir, rfl, hl, by simp [hl]⟩)
    | some op =>
      obtain rfl := lookup_eq_some_iff.1 hl
      cases ha : operandByte (decide (1 ≤ nops op.byte)) (read 1) with
      | error e =>
        have h1 : 1 ≤ nops op.byte ∧ read 1 = .error e := by
          unfold operandByte at ha
          split at ha
          · exact ⟨of_decide_eq_true ‹_›, ha⟩
          · cases ha
        exact .inr (.inr (.inl ⟨op, rfl, h1.1, e, h1.2, by simp [hl, ha]⟩))
      | ok a =>
        cases hb : operandByte (decide (2 ≤ nops op.byte)) (read 2) with
        | error e =>
          have h2 : 2 ≤ nops op.byte ∧ read 2 = .error e := by
            unfold operandByte at hb
            split at hb
            · exact ⟨of_decide_eq_true ‹_›, hb⟩
            · cases hb
          have h1 : read 1 = .ok a := by
            unfold operandByte at ha
            rw [if_pos (decide_eq_true (by omega))] at ha
            exact ha
          exact .inr (.inr (.inr (.inl ⟨op, rfl, h2.1, a, h1, e, h2.2, by simp [hl, ha, hb]⟩)))
        | ok b => exact .inr (.inr (.inr (.inr ⟨op, a, b, rfl, ha, hb, by simp [hl, ha, hb]⟩)))

/-- The encoder's first byte is the opcode byte. -/
theorem encode_head (i : Instr) : (encode i).head? = some i.opcode.byte := rfl

/-- The bytes a decoder is to read back at distances 0 to 2. -/
theorem byteAt_encode_zero (i : Instr) (rest : List Byte) : byteAt (encode i ++ rest) 0 = .ok i.opcode.byte := rfl

end Sys2Proof
end

