-- ==== Sys2Proof/Laws/State.lean ====
section
/-! SUPPORT. What each update of the state does to each field, and the register file's read and write laws. -/

namespace Sys2Proof.Machine

variable (s : State)

/-! ### setReg -/

@[simp] theorem setReg_x (i : Fin 8) (v : Byte) : (s.setReg i v).x = s.x.set i.val v := rfl
@[simp] theorem setReg_pc (i : Fin 8) (v : Byte) : (s.setReg i v).pc = s.pc := rfl
@[simp] theorem setReg_runState (i : Fin 8) (v : Byte) : (s.setReg i v).runState = s.runState := rfl
@[simp] theorem setReg_faultCode (i : Fin 8) (v : Byte) : (s.setReg i v).faultCode = s.faultCode := rfl
@[simp] theorem setReg_faultInfo (i : Fin 8) (v : Byte) : (s.setReg i v).faultInfo = s.faultInfo := rfl
@[simp] theorem setReg_mem (i : Fin 8) (v : Byte) : (s.setReg i v).mem = s.mem := rfl
@[simp] theorem setReg_out (i : Fin 8) (v : Byte) : (s.setReg i v).out = s.out := rfl
@[simp] theorem setReg_runEn (i : Fin 8) (v : Byte) : (s.setReg i v).runEn = s.runEn := rfl
@[simp] theorem setReg_ldErr (i : Fin 8) (v : Byte) : (s.setReg i v).ldErr = s.ldErr := rfl
@[simp] theorem setReg_freeIdx (i : Fin 8) (v : Byte) : (s.setReg i v).freeIdx = s.freeIdx := rfl

/-! ### emit -/

@[simp] theorem emit_x (v : Byte) : (s.emit v).x = s.x := rfl
@[simp] theorem emit_pc (v : Byte) : (s.emit v).pc = s.pc := rfl
@[simp] theorem emit_runState (v : Byte) : (s.emit v).runState = s.runState := rfl
@[simp] theorem emit_faultCode (v : Byte) : (s.emit v).faultCode = s.faultCode := rfl
@[simp] theorem emit_faultInfo (v : Byte) : (s.emit v).faultInfo = s.faultInfo := rfl
@[simp] theorem emit_mem (v : Byte) : (s.emit v).mem = s.mem := rfl
@[simp] theorem emit_out (v : Byte) : (s.emit v).out = s.out ++ [v] := rfl
@[simp] theorem emit_runEn (v : Byte) : (s.emit v).runEn = s.runEn := rfl
@[simp] theorem emit_ldErr (v : Byte) : (s.emit v).ldErr = s.ldErr := rfl
@[simp] theorem emit_freeIdx (v : Byte) : (s.emit v).freeIdx = s.freeIdx := rfl

/-! ### advance -/

@[simp] theorem advance_x (n : Nat) : (s.advance n).x = s.x := rfl
@[simp] theorem advance_pc (n : Nat) : (s.advance n).pc = s.pc + BitVec.ofNat 9 (1 + n) := rfl
@[simp] theorem advance_runState (n : Nat) : (s.advance n).runState = s.runState := rfl
@[simp] theorem advance_faultCode (n : Nat) : (s.advance n).faultCode = s.faultCode := rfl
@[simp] theorem advance_faultInfo (n : Nat) : (s.advance n).faultInfo = s.faultInfo := rfl
@[simp] theorem advance_mem (n : Nat) : (s.advance n).mem = s.mem := rfl
@[simp] theorem advance_out (n : Nat) : (s.advance n).out = s.out := rfl
@[simp] theorem advance_runEn (n : Nat) : (s.advance n).runEn = s.runEn := rfl
@[simp] theorem advance_ldErr (n : Nat) : (s.advance n).ldErr = s.ldErr := rfl
@[simp] theorem advance_freeIdx (n : Nat) : (s.advance n).freeIdx = s.freeIdx := rfl

/-! ### halt -/

@[simp] theorem halt_x : (s.halt).x = s.x := rfl
@[simp] theorem halt_pc : (s.halt).pc = Config.haltPc s.freeIdx := rfl
@[simp] theorem halt_runState : (s.halt).runState = .halted := rfl
@[simp] theorem halt_faultCode : (s.halt).faultCode = s.faultCode := rfl
@[simp] theorem halt_faultInfo : (s.halt).faultInfo = s.faultInfo := rfl
@[simp] theorem halt_mem : (s.halt).mem = s.mem := rfl
@[simp] theorem halt_out : (s.halt).out = s.out := rfl
@[simp] theorem halt_runEn : (s.halt).runEn = s.runEn := rfl
@[simp] theorem halt_ldErr : (s.halt).ldErr = s.ldErr := rfl
@[simp] theorem halt_freeIdx : (s.halt).freeIdx = s.freeIdx + 1 := rfl

/-! ### takeFault -/

@[simp] theorem takeFault_x (f : Fault) : (takeFault f s).x = s.x := rfl
@[simp] theorem takeFault_pc (f : Fault) : (takeFault f s).pc = s.pc := rfl
@[simp] theorem takeFault_runState (f : Fault) : (takeFault f s).runState = .faulted := rfl
@[simp] theorem takeFault_faultCode (f : Fault) : (takeFault f s).faultCode = f.code := rfl
@[simp] theorem takeFault_faultInfo (f : Fault) : (takeFault f s).faultInfo = f.info := rfl
@[simp] theorem takeFault_mem (f : Fault) : (takeFault f s).mem = s.mem := rfl
@[simp] theorem takeFault_out (f : Fault) : (takeFault f s).out = s.out := rfl
@[simp] theorem takeFault_runEn (f : Fault) : (takeFault f s).runEn = s.runEn := rfl
@[simp] theorem takeFault_ldErr (f : Fault) : (takeFault f s).ldErr = s.ldErr := rfl
@[simp] theorem takeFault_freeIdx (f : Fault) : (takeFault f s).freeIdx = s.freeIdx := rfl

/-! ### placeAtPc -/

@[simp] theorem placeAtPc_x (nbits w : Nat) : (placeAtPc s nbits w).x = s.x := rfl
@[simp] theorem placeAtPc_pc (nbits w : Nat) : (placeAtPc s nbits w).pc = s.pc := rfl
@[simp] theorem placeAtPc_runState (nbits w : Nat) : (placeAtPc s nbits w).runState = s.runState := rfl
@[simp] theorem placeAtPc_faultCode (nbits w : Nat) : (placeAtPc s nbits w).faultCode = s.faultCode := rfl
@[simp] theorem placeAtPc_faultInfo (nbits w : Nat) : (placeAtPc s nbits w).faultInfo = s.faultInfo := rfl
@[simp] theorem placeAtPc_mem (nbits w : Nat) : (placeAtPc s nbits w).mem = Memory.writeBytes s.mem s.pc.toNat (tableBytes nbits w) := rfl
@[simp] theorem placeAtPc_out (nbits w : Nat) : (placeAtPc s nbits w).out = s.out := rfl
@[simp] theorem placeAtPc_runEn (nbits w : Nat) : (placeAtPc s nbits w).runEn = true := rfl
@[simp] theorem placeAtPc_ldErr (nbits w : Nat) : (placeAtPc s nbits w).ldErr = s.ldErr := rfl
@[simp] theorem placeAtPc_freeIdx (nbits w : Nat) : (placeAtPc s nbits w).freeIdx = s.freeIdx := rfl

/-! ### hostReset -/

@[simp] theorem hostReset_x : (hostReset s).x = Vector.replicate 8 0 := rfl
@[simp] theorem hostReset_pc : (hostReset s).pc = 0 := rfl
@[simp] theorem hostReset_runState : (hostReset s).runState = .running := rfl
@[simp] theorem hostReset_faultCode : (hostReset s).faultCode = .none := rfl
@[simp] theorem hostReset_faultInfo : (hostReset s).faultInfo = 0 := rfl
@[simp] theorem hostReset_mem : (hostReset s).mem = [] := rfl
@[simp] theorem hostReset_out : (hostReset s).out = [] := rfl
@[simp] theorem hostReset_runEn : (hostReset s).runEn = s.runEn := rfl
@[simp] theorem hostReset_ldErr : (hostReset s).ldErr = false := rfl
@[simp] theorem hostReset_freeIdx : (hostReset s).freeIdx = s.freeIdx := rfl

/-! ### Registers -/

@[simp] theorem reset_x : State.reset.x = Vector.replicate 8 0 := rfl

@[simp] theorem reg_setReg_same (i : Fin 8) (v : Byte) : (s.setReg i v).reg i = v := by
  simp [State.reg]

theorem reg_setReg_other {i j : Fin 8} (h : j ≠ i) (v : Byte) : (s.setReg i v).reg j = s.reg j := by
  have : i.val ≠ j.val := fun e => h (Fin.ext e.symm)
  simp [State.reg, this]

/-- The checked write and the total write of the vector agree on a register index. -/
theorem setReg_x_eq_setIfInBounds (i : Fin 8) (v : Byte) : (s.setReg i v).x = s.x.setIfInBounds i.val v := by
  ext j hj
  simp [Vector.getElem_set, Vector.getElem_setIfInBounds]

/-- The checked read and the total read of the vector agree on a register index. -/
theorem reg_eq_getD (i : Fin 8) : s.reg i = (s.x[i.val]?).getD 0 := by
  simp [State.reg]

/-- A state is its ten fields. -/
theorem State.ext_fields {s t : State} (hx : s.x = t.x) (hpc : s.pc = t.pc) (hr : s.runState = t.runState)
    (hc : s.faultCode = t.faultCode) (hi : s.faultInfo = t.faultInfo) (hm : s.mem = t.mem) (ho : s.out = t.out)
    (he : s.runEn = t.runEn) (hl : s.ldErr = t.ldErr) (hf : s.freeIdx = t.freeIdx) : s = t := by
  cases s; cases t; simp_all

end Sys2Proof.Machine
end

