-- ==== Sys2Proof/Laws/Exec.lean ====
section
/-! SUPPORT. What each shared operation of the meanings can do: the register check, the ALU's arithmetic, the common
handler, retiring. -/

namespace Sys2Proof.Machine

/-! ### The register check (R14) -/

theorem regCheck_ok_iff {b : Byte} {i : Fin 8} : regCheck b = .ok i ↔ b.toNat = i.val := by
  unfold regCheck
  split
  · constructor
    · intro h; cases h; rfl
    · intro h; exact congrArg _ (Fin.ext h)
  · constructor
    · intro h; cases h
    · intro h; have := i.isLt; omega

theorem regCheck_error_iff {b : Byte} {f : Fault} :
    regCheck b = .error f ↔ 8 ≤ b.toNat ∧ f = .outOfBoundsReg b := by
  unfold regCheck
  split
  · constructor
    · intro h; cases h
    · intro h; omega
  · constructor
    · intro h; cases h; exact ⟨by omega, rfl⟩
    · rintro ⟨-, rfl⟩; rfl

theorem regCheck_lt {b : Byte} (h : b.toNat < 8) : regCheck b = .ok ⟨b.toNat, h⟩ := regCheck_ok_iff.2 rfl

theorem regCheck_ge {b : Byte} (h : 8 ≤ b.toNat) : regCheck b = .error (.outOfBoundsReg b) :=
  regCheck_error_iff.2 ⟨h, rfl⟩

/-- The byte of a register number passes the check. -/
@[simp] theorem regCheck_ofFin (i : Fin 8) : regCheck (BitVec.ofNat 8 i.val) = .ok i := by
  refine regCheck_ok_iff.2 ?_
  have := i.isLt
  simp only [BitVec.toNat_ofNat]
  omega

/-! ### The ALU (R110) -/

/-- There is no exact result exactly for a zero divisor. -/
theorem aluExact_eq_none_iff {op : AluOp} {a b : Byte} : aluExact op a b = none ↔ op = .div ∧ b = 0 := by
  have hb : b.toNat = 0 ↔ b = 0 := by
    constructor
    · intro h; exact BitVec.eq_of_toNat_eq h
    · rintro rfl; rfl
  cases op <;> simp [aluExact, hb]

theorem narrow_add (a b : Byte) : narrow ((a.toNat : Int) + b.toNat) = a + b := by
  apply BitVec.eq_of_toNat_eq
  simp [narrow, BitVec.toNat_ofInt]
  omega

theorem narrow_sub (a b : Byte) : narrow ((a.toNat : Int) - b.toNat) = a - b := by
  apply BitVec.eq_of_toNat_eq
  have := a.isLt
  have := b.isLt
  simp [narrow, BitVec.toNat_ofInt, BitVec.toNat_sub]
  omega

theorem narrow_mul (a b : Byte) : narrow ((a.toNat : Int) * b.toNat) = a * b := by
  apply BitVec.eq_of_toNat_eq
  simp only [narrow, BitVec.toNat_ofInt, BitVec.toNat_mul]
  rw [← Int.natCast_mul, show ((2 : Nat) ^ 8 : Nat) = 256 from rfl]
  omega

theorem narrow_div (a b : Byte) : narrow (Int.fdiv a.toNat b.toNat) = a / b := by
  apply BitVec.eq_of_toNat_eq
  have h : Int.fdiv (a.toNat : Int) b.toNat = ((a.toNat / b.toNat : Nat) : Int) := by
    rw [Int.fdiv_eq_ediv_of_nonneg _ (by omega)]
    rfl
  have hlt : a.toNat / b.toNat < 256 := lt_of_le_of_lt (Nat.div_le_self _ _) a.isLt
  rw [h]
  simp only [narrow, BitVec.toNat_ofInt, BitVec.toNat_udiv]
  generalize a.toNat / b.toNat = q at hlt
  omega

/-! ### The common handler (R105) -/

/-- Everything the ALU's handler can do, in the order of its checks. -/
theorem aluHandler_cases (op : AluOp) (opA opB : Byte) (s : State) :
    (8 ≤ opA.toNat ∧ aluHandler op opA opB s = .error (.outOfBoundsReg opA)) ∨
    (opA.toNat < 8 ∧ 8 ≤ opB.toNat ∧ aluHandler op opA opB s = .error (.outOfBoundsReg opB)) ∨
    (∃ a b : Fin 8, opA.toNat = a.val ∧ opB.toNat = b.val ∧ op = .div ∧ s.reg b = 0 ∧
      aluHandler op opA opB s = .error (.divisionByZero opB)) ∨
    (∃ (a b : Fin 8) (r : Int), opA.toNat = a.val ∧ opB.toNat = b.val ∧ aluExact op (s.reg a) (s.reg b) = some r ∧
      aluHandler op opA opB s = .ok (s.setReg a (narrow r))) := by
  unfold aluHandler
  rcases Nat.lt_or_ge opA.toNat 8 with ha | ha
  · rcases Nat.lt_or_ge opB.toNat 8 with hb | hb
    · rw [regCheck_lt ha, regCheck_lt hb]
      cases he : aluExact op (s.reg ⟨opA.toNat, ha⟩) (s.reg ⟨opB.toNat, hb⟩) with
      | none =>
        obtain ⟨h1, h2⟩ := aluExact_eq_none_iff.1 he
        exact .inr (.inr (.inl ⟨⟨_, ha⟩, ⟨_, hb⟩, rfl, rfl, h1, h2, by simp [he]⟩))
      | some r => exact .inr (.inr (.inr ⟨⟨_, ha⟩, ⟨_, hb⟩, r, rfl, rfl, he, by simp [he]⟩))
    · rw [regCheck_lt ha, regCheck_ge hb]
      exact .inr (.inl ⟨ha, hb, rfl⟩)
  · rw [regCheck_ge ha]
    exact .inl ⟨ha, rfl⟩

/-! ### Retiring (R77, R126) -/

@[simp] theorem retire_ok (op : Opcode) (s t : State) :
    retire op s (.ok t) = .next (t.advance (nops op.byte)) := rfl

@[simp] theorem retire_error (op : Opcode) (s : State) (f : Fault) :
    retire op s (.error f) = .next (takeFault f s) := rfl

/-- The opcode of an ALU operation. -/
def aluOpcode : AluOp → Opcode
  | .add => .add
  | .sub => .sub
  | .mul => .mul
  | .div => .div

/-- Everything an instruction can do: raise a fault with no other effect, write one register and advance by 3, emit one
value and advance by 2, or halt (R76). The fault is one a handler raises: REG or zero divisor. -/
theorem exec_cases (i : Instr) (s : State) :
    (∃ f, exec i s = .next (takeFault f s) ∧
      ((∃ b : Byte, f = .outOfBoundsReg b ∧ 8 ≤ b.toNat) ∨ ∃ b : Byte, f = .divisionByZero b ∧ b.toNat < 8)) ∨
    (∃ (a : Fin 8) (v : Byte), exec i s = .next ((s.setReg a v).advance 2) ∧ nops i.opcode.byte = 2) ∨
    (∃ a : Fin 8, exec i s = .next ((s.emit (s.reg a)).advance 1) ∧ i = .prn (BitVec.ofNat 8 a.val)) ∨
    (exec i s = .next s.halt ∧ i = .hlt) := by
  have alu : ∀ (op : AluOp) (oc : Opcode) (opA opB : Byte), nops oc.byte = 2 →
      (∃ f, retire oc s (aluHandler op opA opB s) = .next (takeFault f s) ∧
        ((∃ b : Byte, f = .outOfBoundsReg b ∧ 8 ≤ b.toNat) ∨ ∃ b : Byte, f = .divisionByZero b ∧ b.toNat < 8)) ∨
      ∃ (a : Fin 8) (v : Byte), retire oc s (aluHandler op opA opB s) = .next ((s.setReg a v).advance 2) := by
    intro op oc opA opB h2
    obtain ⟨ha, e⟩ | ⟨-, hb, e⟩ | ⟨a, b, -, hb, -, -, e⟩ | ⟨a, b, r, -, -, -, e⟩ := aluHandler_cases op opA opB s
    · exact .inl ⟨_, by rw [e]; rfl, .inl ⟨opA, rfl, ha⟩⟩
    · exact .inl ⟨_, by rw [e]; rfl, .inl ⟨opB, rfl, hb⟩⟩
    · exact .inl ⟨_, by rw [e]; rfl, .inr ⟨opB, rfl, by have := b.isLt; omega⟩⟩
    · exact .inr ⟨a, narrow r, by rw [e, retire_ok, h2]⟩
  cases i with
  | ldi opA opB =>
    rcases Nat.lt_or_ge opA.toNat 8 with ha | ha
    · exact .inr (.inl ⟨⟨opA.toNat, ha⟩, opB, by simp [exec, execLdi, regCheck_lt ha, immediate], nops_ldi⟩)
    · exact .inl ⟨.outOfBoundsReg opA, by simp [exec, execLdi, regCheck_ge ha], .inl ⟨opA, rfl, ha⟩⟩
  | prn opA =>
    rcases Nat.lt_or_ge opA.toNat 8 with ha | ha
    · refine .inr (.inr (.inl ⟨⟨opA.toNat, ha⟩, by simp [exec, execPrn, regCheck_lt ha], ?_⟩))
      simp
    · exact .inl ⟨.outOfBoundsReg opA, by simp [exec, execPrn, regCheck_ge ha], .inl ⟨opA, rfl, ha⟩⟩
  | hlt => exact .inr (.inr (.inr ⟨rfl, rfl⟩))
  | add opA opB => exact (alu .add .add opA opB nops_add).imp id fun ⟨a, v, e⟩ => .inl ⟨a, v, e, nops_add⟩
  | sub opA opB => exact (alu .sub .sub opA opB nops_sub).imp id fun ⟨a, v, e⟩ => .inl ⟨a, v, e, nops_sub⟩
  | mul opA opB => exact (alu .mul .mul opA opB nops_mul).imp id fun ⟨a, v, e⟩ => .inl ⟨a, v, e, nops_mul⟩
  | div opA opB => exact (alu .div .div opA opB nops_div).imp id fun ⟨a, v, e⟩ => .inl ⟨a, v, e, nops_div⟩

end Sys2Proof.Machine
end

