-- ==== Sys2Proof/Laws/Memory.lean ====
section
/-! SUPPORT. Memory's laws: every operation keeps the canonical form, a read after a write, and the bounds checks. -/

namespace Sys2Proof.Machine

theorem wfFrom_mono {lo lo' : Nat} {m : Memory} (h : lo' ≤ lo) (hm : Memory.wfFrom lo m = true) :
    Memory.wfFrom lo' m = true := by
  cases m with
  | nil => rfl
  | cons c m =>
    simp only [Memory.wfFrom, Bool.and_eq_true, decide_eq_true_eq] at hm ⊢
    exact ⟨⟨⟨by omega, hm.1.1.2⟩, hm.1.2⟩, hm.2⟩

/-- Below the first listed address every cell is blank. -/
theorem read_below {lo a : Nat} {m : Memory} (hm : Memory.wfFrom lo m = true) (h : a < lo) :
    Memory.read m a = blankByte := by
  induction m generalizing lo with
  | nil => rfl
  | cons c m ih =>
    obtain ⟨b, w⟩ := c
    simp only [Memory.wfFrom, Bool.and_eq_true, decide_eq_true_eq] at hm
    have : a ≠ b := by omega
    simp only [Memory.read, this, if_false]
    exact ih hm.2 (by omega)

theorem write_wfFrom {lo a : Nat} {m : Memory} (v : Byte) (hm : Memory.wfFrom lo m = true) (hl : lo ≤ a)
    (ha : a < 256) : Memory.wfFrom lo (Memory.write m a v) = true := by
  induction m generalizing lo with
  | nil =>
    by_cases hv : v = blankByte
    · simp [Memory.write, hv, Memory.wfFrom]
    · simp [Memory.write, hv, Memory.wfFrom, hl, ha]
  | cons c m ih =>
    obtain ⟨b, w⟩ := c
    have hm' := hm
    simp only [Memory.wfFrom, Bool.and_eq_true, decide_eq_true_eq] at hm'
    obtain ⟨⟨⟨h1, h2⟩, h3⟩, h4⟩ := hm'
    unfold Memory.write
    split
    · split
      · exact hm
      · simp only [Memory.wfFrom, Bool.and_eq_true, decide_eq_true_eq]
        exact ⟨⟨⟨hl, ha⟩, ‹_›⟩, ⟨⟨by omega, h2⟩, h3⟩, h4⟩
    · split
      · split
        · exact wfFrom_mono (by omega) h4
        · simp only [Memory.wfFrom, Bool.and_eq_true, decide_eq_true_eq]
          subst_vars
          exact ⟨⟨⟨hl, ha⟩, ‹_›⟩, h4⟩
      · simp only [Memory.wfFrom, Bool.and_eq_true, decide_eq_true_eq]
        exact ⟨⟨⟨h1, h2⟩, h3⟩, ih h4 (by omega)⟩

/-- A write inside the space keeps the canonical form. -/
theorem write_wf {m : Memory} {a : Nat} (v : Byte) (hm : m.wf = true) (ha : a < 256) :
    (Memory.write m a v).wf = true :=
  write_wfFrom v hm (Nat.zero_le _) ha

theorem read_write_from {lo a : Nat} {m : Memory} (v : Byte) (c : Nat) (hm : Memory.wfFrom lo m = true) :
    Memory.read (Memory.write m a v) c = if c = a then v else Memory.read m c := by
  induction m generalizing lo with
  | nil =>
    by_cases hv : v = blankByte <;> by_cases hc : c = a <;> simp [Memory.write, Memory.read, hv, hc]
  | cons d m ih =>
    obtain ⟨b, w⟩ := d
    simp only [Memory.wfFrom, Bool.and_eq_true, decide_eq_true_eq] at hm
    unfold Memory.write
    split
    · rename_i hab
      split
      · rename_i hv
        by_cases hc : c = a
        · subst hc
          have hcb : c ≠ b := by omega
          simp only [Memory.read, hcb, if_false, if_true, hv]
          exact read_below hm.2 (by omega)
        · simp [hc]
      · by_cases hc : c = a <;> simp [Memory.read, hc]
    · split
      · rename_i hab
        subst hab
        split
        · rename_i hv
          by_cases hc : c = a
          · simp only [hc, if_true, hv]
            exact read_below hm.2 (by omega)
          · simp [hc, Memory.read]
        · by_cases hc : c = a <;> simp [Memory.read, hc]
      · rename_i h1 h2
        by_cases hcb : c = b
        · have : c ≠ a := by omega
          simp only [Memory.read, hcb, if_true]
          split
          · omega
          · rfl
        · simp only [Memory.read, hcb, if_false]
          exact ih hm.2

/-- A read after a write in a canonical memory (R32: only the cell written changes). -/
theorem read_write {m : Memory} {a : Nat} (v : Byte) (c : Nat) (hm : m.wf = true) :
    Memory.read (Memory.write m a v) c = if c = a then v else Memory.read m c :=
  read_write_from v c hm

theorem read_write_same {m : Memory} {a : Nat} (v : Byte) (hm : m.wf = true) :
    Memory.read (Memory.write m a v) a = v := by
  simp [read_write v a hm]

theorem read_write_other {m : Memory} {a c : Nat} (v : Byte) (hm : m.wf = true) (h : c ≠ a) :
    Memory.read (Memory.write m a v) c = Memory.read m c := by
  simp [read_write v c hm, h]

theorem writeBytes_wf {m : Memory} (a : Nat) (bs : List Byte) (hm : m.wf = true) :
    (Memory.writeBytes m a bs).wf = true := by
  induction bs generalizing m a with
  | nil => exact hm
  | cons b bs ih =>
    unfold Memory.writeBytes
    split
    · exact ih _ (write_wf b hm ‹_›)
    · exact ih _ hm

/-- What consecutive writes leave: the new bytes inside the space, every other cell as it was. -/
theorem read_writeBytes {m : Memory} (a : Nat) (bs : List Byte) (c : Nat) (hm : m.wf = true) :
    Memory.read (Memory.writeBytes m a bs) c =
      if a ≤ c ∧ c < a + bs.length ∧ c < 256 then (bs[c - a]?).getD 0 else Memory.read m c := by
  induction bs generalizing m a with
  | nil => simp [Memory.writeBytes]; omega
  | cons b bs ih =>
    unfold Memory.writeBytes
    by_cases ha : a < 256
    · simp only [ha, if_true]
      rw [ih _ (write_wf b hm ha), read_write b c hm]
      by_cases hca : c = a
      · subst hca
        simp [ha]
      · by_cases hin : a ≤ c ∧ c < a + (b :: bs).length ∧ c < 256
        · have h2 : a + 1 ≤ c ∧ c < a + 1 + bs.length ∧ c < 256 := by
            simp only [List.length_cons] at hin; omega
          obtain ⟨k, hk⟩ : ∃ k, c - a = k + 1 := ⟨c - a - 1, by omega⟩
          have hk' : c - (a + 1) = k := by omega
          rw [if_pos h2, if_pos hin, hk, hk', List.getElem?_cons_succ]
        · have h2 : ¬ (a + 1 ≤ c ∧ c < a + 1 + bs.length ∧ c < 256) := by
            simp only [List.length_cons] at hin; omega
          simp only [hin, h2, hca, if_false]
    · simp only [ha, if_false]
      rw [ih _ hm]
      have h1 : ¬ (a + 1 ≤ c ∧ c < a + 1 + bs.length ∧ c < 256) := by omega
      have h2 : ¬ (a ≤ c ∧ c < a + (b :: bs).length ∧ c < 256) := by omega
      simp only [h1, h2, if_false]

/-! ### The bounds-checked interface -/

theorem memRead_ok_iff {m : Memory} {a : Nat} {b : Byte} :
    memRead m a = .ok b ↔ a < 256 ∧ b = Memory.read m a := by
  unfold memRead
  split
  · constructor
    · intro h; cases h
    · intro h; omega
  · constructor
    · intro h; cases h; exact ⟨by omega, rfl⟩
    · rintro ⟨-, rfl⟩; rfl

theorem memRead_error_iff {m : Memory} {a : Nat} {f : Fault} :
    memRead m a = .error f ↔ 256 ≤ a ∧ f = .outOfBoundsMem a := by
  unfold memRead
  split
  · constructor
    · intro h; cases h; exact ⟨‹_›, rfl⟩
    · rintro ⟨-, rfl⟩; rfl
  · constructor
    · intro h; cases h
    · intro h; omega

theorem memRead_lt {m : Memory} {a : Nat} (h : a < 256) : memRead m a = .ok (Memory.read m a) :=
  memRead_ok_iff.2 ⟨h, rfl⟩

theorem memRead_ge {m : Memory} {a : Nat} (h : 256 ≤ a) : memRead m a = .error (.outOfBoundsMem a) :=
  memRead_error_iff.2 ⟨h, rfl⟩

/-- Everything the load port's write can do. -/
theorem memWrite_cases (a : Nat) (v : Byte) (s : State) :
    (256 ≤ a ∧ memWrite a v s = { s with ldErr := true }) ∨
      (a < 256 ∧ memWrite a v s = { s with mem := Memory.write s.mem a v, ldErr := false }) := by
  unfold memWrite
  split
  · exact .inl ⟨‹_›, rfl⟩
  · exact .inr ⟨by omega, rfl⟩

theorem memWrite_wf {s : State} (a : Nat) (v : Byte) (h : s.mem.wf = true) : (memWrite a v s).mem.wf = true := by
  obtain ⟨-, e⟩ | ⟨ha, e⟩ := memWrite_cases a v s
  · rw [e]; exact h
  · rw [e]; exact write_wf v h ha

theorem reset_mem_wf : State.reset.mem.wf = true := rfl

end Sys2Proof.Machine
end

