-- ==== Sys2Proof/Laws/Loader.lean ====
section
/-! SUPPORT. What the host's load can do: the bytes of an image one after the other, and the lines of an image text as
the bytes they stand for. -/

namespace Sys2Proof.Machine

/-- A load write inside memory (R32, R152). -/
theorem loadByte_lt {a : Nat} (v : Byte) (s : State) (h : a < 256) :
    loadByte a v s = ({ s with mem := Memory.write s.mem a v, ldErr := false }, none) := by
  obtain ⟨ha, -⟩ | ⟨-, e⟩ := memWrite_cases a v s
  · omega
  · simp [loadByte, e]

/-- A load write beyond memory (R32, D20). -/
theorem loadByte_ge {a : Nat} (v : Byte) (s : State) (h : 256 ≤ a) :
    loadByte a v s = ({ s with ldErr := true }, some (.outOfBounds a)) := by
  obtain ⟨-, e⟩ | ⟨ha, -⟩ := memWrite_cases a v s
  · simp [loadByte, e]
  · omega

/-- An image that fits is loaded whole (R152). -/
theorem loadBytes_fit {n : Nat} {bs : List Byte} {s : State} (hs : s.ldErr = false) (h : n + bs.length ≤ 256) :
    loadBytes n bs s = ({ s with mem := Memory.writeBytes s.mem n bs }, none) := by
  induction bs generalizing n s with
  | nil => rfl
  | cons b bs ih =>
    simp only [List.length_cons] at h
    have hn : n < 256 := by omega
    simp only [loadBytes, loadByte_lt b s hn, Memory.writeBytes, hn, if_true]
    rw [ih rfl (by omega), hs]

/-- Two images one after the other are one image. -/
theorem loadBytes_append (n : Nat) (bs cs : List Byte) (s : State) :
    loadBytes n (bs ++ cs) s =
      match loadBytes n bs s with
      | (t, none) => loadBytes (n + bs.length) cs t
      | (t, some e) => (t, some e) := by
  induction bs generalizing n s with
  | nil => rfl
  | cons b bs ih =>
    simp only [List.cons_append, loadBytes, List.length_cons]
    rcases loadByte n b s with ⟨t, _ | e⟩
    · simp only [ih, Nat.add_assoc, Nat.add_comm 1]
    · rfl

/-- An image that does not fit is loaded up to the top of memory, and its next byte is refused (R152, D20). -/
theorem loadBytes_over {n : Nat} {bs : List Byte} {s : State} (hs : s.ldErr = false) (hn : n ≤ 256)
    (h : 256 < n + bs.length) :
    loadBytes n bs s =
      ({ s with mem := Memory.writeBytes s.mem n (bs.take (256 - n)), ldErr := true }, some (.outOfBounds 256)) := by
  conv_lhs => rw [← List.take_append_drop (256 - n) bs]
  have hl : (bs.take (256 - n)).length = 256 - n := by rw [List.length_take]; omega
  rw [loadBytes_append, loadBytes_fit hs (by omega), hl]
  cases hd : bs.drop (256 - n) with
  | nil =>
    have := congrArg List.length hd
    simp at this; omega
  | cons b cs =>
    have : n + (256 - n) = 256 := by omega
    simp only [this, loadBytes, loadByte_ge b _ (Nat.le_refl 256)]

/-- Lines that all parse load the bytes they stand for, and the load goes on with the lines after them (R153). -/
theorem loadLines_good {n : Nat} {good : List (List Char)} {parsed : List (Option Byte)} {rest : List (List Char)}
    {s : State} (h : good.map parseLine = parsed.map .ok) :
    loadLines n (good ++ rest) s =
      match loadBytes n (parsed.filterMap id) s with
      | (t, none) => loadLines (n + (parsed.filterMap id).length) rest t
      | (t, some e) => (t, some e) := by
  induction good generalizing n s parsed with
  | nil =>
    obtain rfl : parsed = [] := by simpa using h.symm
    rfl
  | cons line good ih =>
    cases parsed with
    | nil => cases h
    | cons p parsed =>
      obtain ⟨hp, h⟩ := List.cons.inj h
      have ih := fun n s => ih (n := n) (s := s) h
      cases p with
      | none =>
        change _ = match loadBytes n (parsed.filterMap id) s with
          | (t, none) => loadLines (n + (parsed.filterMap id).length) rest t
          | (t, some e) => (t, some e)
        simp only [List.cons_append, loadLines, hp, ih]
      | some b =>
        have hb : (some b :: parsed).filterMap id = b :: parsed.filterMap id := rfl
        simp only [List.cons_append, loadLines, hp, hb, loadBytes, List.length_cons]
        rcases loadByte n b s with ⟨t, _ | e⟩
        · simp only [ih, Nat.add_assoc, Nat.add_comm 1]
        · rfl

/-- Any list of lines is lines that parse, then nothing or a malformed one. -/
theorem lines_split (lines : List (List Char)) :
    ∃ (good : List (List Char)) (parsed : List (Option Byte)) (rest : List (List Char)),
      lines = good ++ rest ∧ good.map parseLine = parsed.map .ok ∧
        (rest = [] ∨ ∃ bad more e, rest = bad :: more ∧ parseLine bad = .error e) := by
  induction lines with
  | nil => exact ⟨[], [], [], rfl, rfl, .inl rfl⟩
  | cons line lines ih =>
    cases hl : parseLine line with
    | error e => exact ⟨[], [], line :: lines, rfl, rfl, .inr ⟨line, lines, e, rfl, hl⟩⟩
    | ok p =>
      obtain ⟨good, parsed, rest, rfl, hg, hr⟩ := ih
      exact ⟨line :: good, p :: parsed, rest, rfl, by simp [hl, hg], hr⟩

end Sys2Proof.Machine
end

