-- ==== Sys2Proof/Laws/PerInstr.lean ====
section
/-! SUPPORT. Statements about every instruction as syntax, one lemma per constructor. -/

namespace Sys2Proof.Laws.EncodedWidth

/-- The encoding is as long as bits 7:6 of its own first byte say, `NOPS + 1` (30_encoding.md R50). -/
def Statement (i : Instr) : Prop := (encode i).length = 1 + nops i.opcode.byte

theorem ldi (opA opB : Byte) : Statement (.ldi opA opB) := by
  simp [Statement, encode, Instr.opcode]
theorem prn (opA : Byte) : Statement (.prn opA) := by
  simp [Statement, encode, Instr.opcode]
theorem hlt : Statement .hlt := by
  simp [Statement, encode, Instr.opcode]
theorem add (opA opB : Byte) : Statement (.add opA opB) := by
  simp [Statement, encode, Instr.opcode]
theorem sub (opA opB : Byte) : Statement (.sub opA opB) := by
  simp [Statement, encode, Instr.opcode]
theorem mul (opA opB : Byte) : Statement (.mul opA opB) := by
  simp [Statement, encode, Instr.opcode]
theorem div (opA opB : Byte) : Statement (.div opA opB) := by
  simp [Statement, encode, Instr.opcode]

end Sys2Proof.Laws.EncodedWidth
end

