-- ==== Sys2Proof/Laws/Step.lean ====
section
/-! SUPPORT. What the instruction fetch and one step can do. -/

namespace Sys2Proof.Machine

/-- Everything the fetch at `pc` can answer, in the order of R71: opcode fetch out of bounds, unknown opcode, `op_a` out
of bounds, `op_b` out of bounds, or the instruction, all of whose bytes lie inside memory. -/
theorem fetchInstr_cases (s : State) :
    (256 ≤ s.pc.toNat ∧ fetchInstr s = .error (.outOfBoundsMem s.pc.toNat)) ∨
    (s.pc.toNat < 256 ∧ lookup (Memory.read s.mem s.pc.toNat) = none ∧
      fetchInstr s = .error (.unknownOpcode (Memory.read s.mem s.pc.toNat))) ∨
    (∃ op : Opcode, s.pc.toNat = 255 ∧ Memory.read s.mem s.pc.toNat = op.byte ∧ 1 ≤ nops op.byte ∧
      fetchInstr s = .error (.outOfBoundsMem 256)) ∨
    (∃ op : Opcode, s.pc.toNat = 254 ∧ Memory.read s.mem s.pc.toNat = op.byte ∧ nops op.byte = 2 ∧
      fetchInstr s = .error (.outOfBoundsMem 256)) ∨
    (∃ op : Opcode, s.pc.toNat + nops op.byte < 256 ∧ Memory.read s.mem s.pc.toNat = op.byte ∧
      fetchInstr s = .ok (op.withOperands
        (Memory.read s.mem (s.pc.toNat + 1)) (Memory.read s.mem (s.pc.toNat + 2)))) := by
  have lift : ∀ {b : Byte}, memRead s.mem (s.pc.toNat + 0) = .ok b →
      s.pc.toNat < 256 ∧ Memory.read s.mem s.pc.toNat = b := fun h => by
    obtain ⟨h1, h2⟩ := memRead_ok_iff.1 h
    exact ⟨by omega, h2.symm⟩
  rcases decodeWith_cases (fun k => memRead s.mem (s.pc.toNat + k)) Fault.unknownOpcode with
    ⟨e, h0, h⟩ | ⟨ir, h0, hl, h⟩ | ⟨op, h0, hn, e, h1, h⟩ | ⟨op, h0, hn, a, h1, e, h2, h⟩ | ⟨op, a, b, h0, h1, h2, h⟩
  · obtain ⟨hge, rfl⟩ := memRead_error_iff.1 h0
    exact .inl ⟨by omega, h⟩
  · obtain ⟨hlt, rfl⟩ := lift h0
    exact .inr (.inl ⟨hlt, hl, h⟩)
  · obtain ⟨hlt, hop⟩ := lift h0
    obtain ⟨hge, rfl⟩ := memRead_error_iff.1 h1
    have : s.pc.toNat + 1 = 256 := by omega
    exact .inr (.inr (.inl ⟨op, by omega, hop, hn, by rw [← this]; exact h⟩))
  · obtain ⟨-, hop⟩ := lift h0
    obtain ⟨hlt, -⟩ := memRead_ok_iff.1 h1
    obtain ⟨hge, rfl⟩ := memRead_error_iff.1 h2
    have : s.pc.toNat + 2 = 256 := by omega
    have hle := nops_byte_le op
    exact .inr (.inr (.inr (.inl ⟨op, by omega, hop, by omega, by rw [← this]; exact h⟩)))
  · obtain ⟨hlt, hop⟩ := lift h0
    refine .inr (.inr (.inr (.inr ⟨op, ?_, hop, ?_⟩)))
    · cases op <;> simp [operandByte, nops_byte, memRead_ok_iff] at h1 h2 ⊢ <;> omega
    · refine h.trans (congrArg _ ?_)
      cases op <;> simp [operandByte, nops_byte, memRead_ok_iff] at h1 h2 <;>
        simp [Opcode.withOperands, h1, h2]

theorem canStep_iff (s : State) : canStep s = true ↔ s.runState = .running ∧ s.runEn = true := by
  simp [canStep]

/-- Everything one step can do: nothing, taking the fault of its fetch, or running the instruction it fetched. -/
theorem step_cases (s : State) :
    (¬ (s.runState = .running ∧ s.runEn = true) ∧ step s = .next s) ∨
    (s.runState = .running ∧ s.runEn = true ∧ ∃ f, fetchInstr s = .error f ∧ step s = .next (takeFault f s)) ∨
    (s.runState = .running ∧ s.runEn = true ∧ ∃ i, fetchInstr s = .ok i ∧ step s = exec i s) := by
  unfold step
  by_cases hc : canStep s = true
  · have h := (canStep_iff s).1 hc
    rw [if_pos hc]
    cases hf : fetchInstr s with
    | error f => exact .inr (.inl ⟨h.1, h.2, f, rfl, rfl⟩)
    | ok i => exact .inr (.inr ⟨h.1, h.2, i, rfl, rfl⟩)
  · rw [if_neg hc]
    exact .inl ⟨fun h => hc ((canStep_iff s).2 h), rfl⟩

/-- The advance of an instruction inside memory does not wrap (R16, R77). -/
theorem advance_pc_toNat (s : State) {n : Nat} (h : s.pc.toNat + (1 + n) < 512) :
    (s.advance n).pc.toNat = s.pc.toNat + (1 + n) := by
  simp [BitVec.toNat_add]; omega

open Sys2Proof.Safety in
/-- Every effect one step can have on the state: none, a fault's entry, one register with the pc moved by 3, one output
value with the pc moved by 2, or the halt; with the opcode byte each comes from (R70, R76, R126). -/
theorem step_effects {s t : State} (h : step s = .next t) :
    (¬ (s.runState = .running ∧ s.runEn = true) ∧ t = s) ∨
    (s.runState = .running ∧ s.runEn = true ∧
      ((∃ f, t = takeFault f s ∧ f.code ≠ .none) ∨
       (∃ (a : Fin 8) (v : Byte), t = (s.setReg a v).advance 2 ∧ s.pc.toNat + 2 < 256 ∧ (cell s 1).toNat = a.val ∧
          cell s 0 ∈ [0x82#8, 0xA0#8, 0xA1#8, 0xA2#8, 0xA3#8]) ∨
       (∃ a : Fin 8, t = (s.emit (s.reg a)).advance 1 ∧ s.pc.toNat + 1 < 256 ∧ (cell s 1).toNat = a.val ∧
          cell s 0 = 0x47#8) ∨
       (t = s.halt ∧ s.pc.toNat < 256 ∧ cell s 0 = 0x01#8))) := by
  rcases step_cases s with ⟨h1, e⟩ | ⟨h1, h2, f, -, e⟩ | ⟨h1, h2, i, hf, e⟩
  · rw [e] at h; cases h; exact .inl ⟨h1, rfl⟩
  · rw [e] at h; cases h; exact .inr ⟨h1, h2, .inl ⟨f, rfl, by cases f <;> simp [Fault.code]⟩⟩
  · refine .inr ⟨h1, h2, ?_⟩
    rw [e] at h
    rcases fetchInstr_cases s with ⟨_, e⟩ | ⟨_, _, e⟩ | ⟨o, _, _, _, e⟩ | ⟨o, _, _, _, e⟩ | ⟨o, hp, hc, e⟩ <;>
      rw [e] at hf <;> cases hf
    have hc : cell s 0 = o.byte := hc
    change exec (o.withOperands (cell s 1) (cell s 2)) s = _ at h
    have alu : ∀ (op : AluOp) (oc : Opcode), nops oc.byte = 2 → s.pc.toNat + 2 < 256 →
        cell s 0 ∈ [0x82#8, 0xA0#8, 0xA1#8, 0xA2#8, 0xA3#8] →
        retire oc s (aluHandler op (cell s 1) (cell s 2) s) = .next t →
        (∃ f, t = takeFault f s ∧ f.code ≠ .none) ∨
          ∃ (a : Fin 8) (v : Byte), t = (s.setReg a v).advance 2 ∧ s.pc.toNat + 2 < 256 ∧ (cell s 1).toNat = a.val ∧
            cell s 0 ∈ [0x82#8, 0xA0#8, 0xA1#8, 0xA2#8, 0xA3#8] := by
      intro op oc hn hp hm e
      obtain ⟨-, h⟩ | ⟨-, -, h⟩ | ⟨a, b, ha, hb, rfl, h0, h⟩ | ⟨a, b, r, ha, -, -, h⟩ :=
        aluHandler_cases op (cell s 1) (cell s 2) s <;> rw [h] at e <;> simp [hn] at e <;> subst e
      · exact .inl ⟨_, rfl, by simp [Fault.code]⟩
      · exact .inl ⟨_, rfl, by simp [Fault.code]⟩
      · exact .inl ⟨_, rfl, by simp [Fault.code]⟩
      · exact .inr ⟨a, _, rfl, hp, ha, hm⟩
    cases o with
    | ldi =>
      rcases Nat.lt_or_ge (cell s 1).toNat 8 with ha | ha
      · simp [Opcode.withOperands, exec, execLdi, regCheck_lt ha] at h; subst h
        exact .inr (.inl ⟨⟨_, ha⟩, _, rfl, by simpa using hp, rfl, by rw [hc]; decide⟩)
      · simp [Opcode.withOperands, exec, execLdi, regCheck_ge ha] at h; subst h
        exact .inl ⟨_, rfl, by simp [Fault.code]⟩
    | prn =>
      rcases Nat.lt_or_ge (cell s 1).toNat 8 with ha | ha
      · simp [Opcode.withOperands, exec, execPrn, regCheck_lt ha] at h; subst h
        exact .inr (.inr (.inl ⟨⟨_, ha⟩, rfl, by simpa using hp, rfl, hc⟩))
      · simp [Opcode.withOperands, exec, execPrn, regCheck_ge ha] at h; subst h
        exact .inl ⟨_, rfl, by simp [Fault.code]⟩
    | hlt =>
      simp [Opcode.withOperands, exec, execHlt] at h
      exact .inr (.inr (.inr ⟨h.symm, by simpa using hp, hc⟩))
    | add => exact (alu .add .add nops_add (by simpa using hp) (by rw [hc]; decide) h).imp id .inl
    | sub => exact (alu .sub .sub nops_sub (by simpa using hp) (by rw [hc]; decide) h).imp id .inl
    | mul => exact (alu .mul .mul nops_mul (by simpa using hp) (by rw [hc]; decide) h).imp id .inl
    | div => exact (alu .div .div nops_div (by simpa using hp) (by rw [hc]; decide) h).imp id .inl

@[simp] theorem core_step : Sys2Proof.core.step = step := rfl

end Sys2Proof.Machine
end

