-- ==== Sys2Proof/Tests/Slice0.lean ====
section
/-! SUPPORT. Tests against spec/95_test_vectors.md (the group is named in each comment), the well-formedness smoke, and for
every statement with hypotheses a witness that meets them. -/

namespace Sys2Proof.Tests

open Sys2Proof Sys2Proof.Machine Sys2Proof.Safety Sys2Proof.Stated

/-! ### Helpers -/

/-- A RUNNING state with bytes at `pc`, cells elsewhere 0, and given registers. -/
def at' (pc : PcWord) (bytes : List Byte) (x : Vector Byte 8 := Vector.replicate 8 0) : State :=
  { State.reset with pc := pc, mem := Memory.writeBytes [] pc.toNat bytes, x := x }

/-- The next state, or the reset state where there is none. -/
def nextOf (o : Host.Outcome State Fault Refusal) : State :=
  match o with
  | .next t => t
  | .fault _ => State.reset
  | .refused _ => State.reset

/-- The record a step leaves, with the pc and the registers. -/
def recordOf (s : State) : RunState × FaultCode × BitVec 9 × PcWord :=
  (s.runState, s.faultCode, s.faultInfo, s.pc)

/-! ### Well-formedness: an ill-formed term for each check, and the corner that is well formed -/

theorem test_wf_ldi : (Instr.ldi 8 0).wellFormed = false ∧ (Instr.ldi 7 200).wellFormed = true := by decide
theorem test_wf_prn : (Instr.prn 71).wellFormed = false ∧ (Instr.prn 7).wellFormed = true := by decide
theorem test_wf_hlt : Instr.hlt.wellFormed = true := by decide
theorem test_wf_add : (Instr.add 8 0).wellFormed = false ∧ (Instr.add 0 8).wellFormed = false := by decide
theorem test_wf_sub : (Instr.sub 255 0).wellFormed = false ∧ (Instr.sub 0 255).wellFormed = false := by decide
theorem test_wf_mul : (Instr.mul 8 7).wellFormed = false ∧ (Instr.mul 7 8).wellFormed = false := by decide
theorem test_wf_div : (Instr.div 9 1).wellFormed = false ∧ (Instr.div 1 9).wellFormed = false := by decide

/-! ### Decoding: words written out from R51 and R54, rejections by name, and the table's numbering of bits -/

theorem test_decode_ldi : decode [0b10000010, 0b00000101, 0b10000000, 0x01] = .ok (.ldi 5 128, [0x01]) := by rfl
theorem test_decode_prn : decode [0b01000111, 0b00000111] = .ok (.prn 7, []) := by rfl
theorem test_decode_hlt : decode [0b00000001, 0xFF] = .ok (.hlt, [0xFF]) := by rfl
theorem test_decode_add : decode [0b10100000, 0b00000110, 0b00000001] = .ok (.add 6 1, []) := by rfl
theorem test_decode_sub : decode [0b10100001, 0b00000101, 0b00000110] = .ok (.sub 5 6, []) := by rfl
theorem test_decode_mul : decode [0b10100010, 0b00000010, 0b00000011] = .ok (.mul 2 3, []) := by rfl
theorem test_decode_div : decode [0b10100011, 0b00000001, 0b00000010] = .ok (.div 1 2, []) := by rfl

/-- V-DEC: an out-of-range index decodes (R57); near misses do not. -/
theorem test_decode_bad_index : decode [0x47, 0x08] = .ok (.prn 8, []) := by rfl

theorem test_lookup_near_misses :
    [0x00, 0x03, 0x41, 0x81, 0x07, 0x46, 0x48, 0xC7, 0x02, 0x80, 0x83, 0xC2, 0x20, 0x60, 0xE0, 0x9F, 0xA4, 0xB0].all
      (fun b : Byte => decide (lookup b = none)) = true := by decide

theorem test_decode_rejects_by_name :
    decode [0xFF] = .error (.unknownOpcode 0xFF) ∧ decode [0xA3, 0x00] = .error (.truncated 2) ∧
      decode [] = .error (.truncated 0) := ⟨rfl, rfl, rfl⟩

/-- Bit 0 of the table's number is the least significant bit of the first byte. -/
theorem test_table_word : decodeTableWord 24 0x0201A3 = some (.div 1 2) ∧ decodeTableWord 8 0x01 = some .hlt ∧
    decodeTableWord 8 0xA0 = some (.add 0 0) ∧ decodeTableWord 8 0x00 = none := by decide

theorem test_placed_word_runs : (nextOf (step (State.reset.withFetchWord 24 0x080082))).x[0] = 8 := by decide

/-! ### One step per instruction -/

/-- V-LDI: `82 07 FF` at launch. -/
theorem test_ldi_r7 : (nextOf (step (at' 0 [0x82, 0x07, 0xFF]))).x[7] = 255 ∧
    (nextOf (step (at' 0 [0x82, 0x07, 0xFF]))).pc = 3 := by decide

/-- V-LDI: `82 08 01`: the index is not masked. -/
theorem test_ldi_bad_index : recordOf (nextOf (step (at' 0 [0x82, 0x08, 0x01]))) = (.faulted, .outOfBoundsReg, 8, 0) := by
  decide

/-- V-PRN: `47 00` at 254 with `x[0] = 8`. -/
theorem test_prn_last : (nextOf (step (at' 254 [0x47, 0x00] #v[8, 0, 0, 0, 0, 0, 0, 0]))).out = [8] ∧
    (nextOf (step (at' 254 [0x47, 0x00]))).pc = 256 := by decide

/-- V-PRN: `47` at 255. -/
theorem test_prn_operand_fault : recordOf (nextOf (step (at' 255 [0x47]))) = (.faulted, .outOfBoundsMem, 256, 255) := by
  decide

/-- V-HLT: `01` at 255. -/
theorem test_hlt_at_255 : (nextOf (step (at' 255 [0x01]))).runState = .halted ∧
    (nextOf (step (at' 255 [0x01]))).faultCode = .none := by decide

/-- V-ADD: 200 and 100; `A0 02 02` with 200. -/
theorem test_add_wraps : (nextOf (step (at' 0 [0xA0, 0x00, 0x01] #v[200, 100, 0, 0, 0, 0, 0, 0]))).x[0] = 44 := by decide
theorem test_add_same : (nextOf (step (at' 0 [0xA0, 0x02, 0x02] #v[0, 0, 200, 0, 0, 0, 0, 0]))).x[2] = 144 := by decide

/-- V-SUB: 7 and 8; the operand order with 5 and 20. -/
theorem test_sub_wraps : (nextOf (step (at' 0 [0xA1, 0x00, 0x01] #v[7, 8, 0, 0, 0, 0, 0, 0]))).x[0] = 255 := by decide
theorem test_sub_order : (nextOf (step (at' 0 [0xA1, 0x01, 0x00] #v[5, 20, 0, 0, 0, 0, 0, 0]))).x[1] = 15 := by decide

/-- V-MUL: 20 and 13; `A2 03 03` with 100. -/
theorem test_mul_low : (nextOf (step (at' 0 [0xA2, 0x00, 0x01] #v[20, 13, 0, 0, 0, 0, 0, 0]))).x[0] = 4 := by decide
theorem test_mul_same : (nextOf (step (at' 0 [0xA2, 0x03, 0x03] #v[0, 0, 0, 100, 0, 0, 0, 0]))).x[3] = 16 := by decide

/-- V-DIV: 255 and 2; `A3 06 06` with 0. -/
theorem test_div_floor : (nextOf (step (at' 0 [0xA3, 0x00, 0x01] #v[255, 2, 0, 0, 0, 0, 0, 0]))).x[0] = 127 := by decide
theorem test_div_zero : recordOf (nextOf (step (at' 0 [0xA3, 0x06, 0x06]))) = (.faulted, .divisionByZero, 6, 0) := by
  decide

/-! ### V-FLT: priority -/

theorem test_unknown_before_operand : recordOf (nextOf (step (at' 255 [0x83]))) = (.faulted, .unknownOpcode, 131, 255) := by
  decide
theorem test_memory_before_register : recordOf (nextOf (step (at' 254 [0xA3, 0x09]))) = (.faulted, .outOfBoundsMem, 256, 254) := by
  decide
theorem test_op_a_before_op_b : recordOf (nextOf (step (at' 0 [0xA3, 0x09, 0x0A]))) = (.faulted, .outOfBoundsReg, 9, 0) := by
  decide
theorem test_fetch_at_256 : recordOf (nextOf (step (at' 256 []))) = (.faulted, .outOfBoundsMem, 256, 256) := by decide

/-! ### V-MEM, V-LD, V-RST -/

theorem test_load_port : Memory.read (memWrite 255 7 State.reset).mem 255 = 7 ∧
    (memWrite 256 7 State.reset).mem = [] ∧ (memWrite 256 7 State.reset).ldErr = true := by decide

theorem test_parse_comment : parseLine ['1', '0', ' ', '#', ' ', 'x'] = .ok (some 2) := by rfl
theorem test_parse_blank : parseLine [' ', '#', '1'] = .ok none := by rfl
theorem test_parse_nine_digits : parseLine ['0', '0', '0', '0', '0', '0', '0', '0', '1'] = .ok (some 1) := by rfl
theorem test_parse_256 : parseLine ['1', '0', '0', '0', '0', '0', '0', '0', '0'] =
    .error (.malformedToken ['1', '0', '0', '0', '0', '0', '0', '0', '0']) := by rfl
theorem test_parse_inner_space : parseLine ['1', ' ', '0'] = .error (.malformedToken ['1', ' ', '0']) := by rfl

/-- V-PRN, D12: one decimal integer per line. -/
theorem test_render : renderOut [44, 255, 0] = ['4', '4', '\n', '2', '5', '5', '\n', '0', '\n'] := by decide

/-- V-RST: the empty image's first step. -/
theorem test_empty_image : recordOf (nextOf (step (launch [] State.reset).1)) = (.faulted, .unknownOpcode, 0, 0) := by
  decide

/-! ### Witnesses: each meets all the hypotheses of the statement it is named after, at boundary values -/

/-- A faulted state. -/
def faultedState : State := nextOf (step State.reset)

/-- A state in the load phase. -/
def loading : State := beforeLoad State.reset

theorem witness_ResetIsTheOnlyWayOut : Ended faultedState ∧ ∃ t, event (.host .reset) faultedState = .next t ∧
    t.runState ≠ faultedState.runState := ⟨by decide, _, rfl, by decide⟩
theorem witness_LoadPortWritesOneCell : inLoadPhase loading = true ∧ loading.mem.wf = true ∧
    (255#9).toNat < 256 ∧ 256 ≤ (256#9).toNat := by decide
theorem witness_LoadOutsideLoadPhaseRefused : inLoadPhase State.reset = false ∧ inLoadPhase faultedState = false := by
  decide
theorem witness_LaunchGivesLaunchState : ([] : List Byte).length ≤ 256 ∧ (List.replicate 256 (1 : Byte)).length ≤ 256 :=
  ⟨Nat.zero_le _, Nat.le_of_eq List.length_replicate⟩
theorem witness_OverlongImageDoesNotStart : 256 < (List.replicate 257 (1 : Byte)).length :=
  Nat.lt_of_lt_of_eq (Nat.lt_succ_self 256) List.length_replicate.symm
theorem witness_NonBinaryTokenIsMalformed : '2' ∈ dropComment ['1', '2', '#'] ∧ isSpaceChar '2' = false ∧
    '2' ≠ '0' ∧ '2' ≠ '1' := by decide
theorem witness_LoadErrorNeverStarts : (∃ t e, launchFile none State.reset = (t, some e)) ∧
    ∃ t e, launchFile (some [['1'], ['a', 'b', 'c']]) State.reset = (t, some e) := ⟨⟨_, _, rfl⟩, _, _, rfl⟩
/-- `n` lines of one byte each. -/
def onesFile (n : Nat) : List (List Char) := List.replicate n ['1']
/-- What they parse to. -/
def onesParsed (n : Nat) : List (Option Byte) := List.replicate n (some 1)
theorem onesFile_parses (n : Nat) : (onesFile n).map parseLine = (onesParsed n).map .ok := by
  rw [onesFile, onesParsed, List.map_replicate, List.map_replicate]; rfl
theorem onesParsed_bytes (n : Nat) : ((onesParsed n).filterMap id).length = n := by
  induction n with
  | zero => rfl
  | succ n ih => exact congrArg (· + 1) ih
/-- A blank line, a comment, a token; and the largest file that loads. -/
theorem witness_FileLaunchGivesLaunchState :
    (List.map parseLine [[], ['#', '1'], [' ', '1', '0', ' ', '#']] = List.map .ok [none, none, some 2] ∧
      ([none, none, some (2 : Byte)].filterMap id).length ≤ 256) ∧
    (onesFile 256).map parseLine = (onesParsed 256).map .ok ∧ ((onesParsed 256).filterMap id).length ≤ 256 :=
  ⟨⟨by rfl, by decide⟩, onesFile_parses 256, Nat.le_of_eq (onesParsed_bytes 256)⟩
/-- A malformed line just after the last byte that fits, and byte 256. -/
theorem witness_FirstLoadErrorIsReported :
    ((onesFile 256).map parseLine = (onesParsed 256).map .ok ∧ ((onesParsed 256).filterMap id).length ≤ 256 ∧
      parseLine ['a', 'b', 'c'] = .error (.malformedToken ['a', 'b', 'c'])) ∧
    (onesFile 257).map parseLine = (onesParsed 257).map .ok ∧ 256 < ((onesParsed 257).filterMap id).length :=
  ⟨⟨onesFile_parses 256, Nat.le_of_eq (onesParsed_bytes 256), by rfl⟩, onesFile_parses 257,
    Nat.lt_of_lt_of_eq (Nat.lt_succ_self 256) (onesParsed_bytes 257).symm⟩
/-- A blank line; the largest value that fits, and the least that does not, with white space and a comment. -/
theorem witness_LineLoadsItsTokenOrNothing :
    (∀ c ∈ dropComment [' ', '\t', '#', '1'], isSpaceChar c = true) ∧
    (∀ c ∈ [' ', '\t'], isSpaceChar c = true) ∧ (['#', 'x'] = [] ∨ ∃ comment, ['#', 'x'] = '#' :: comment) ∧
    bitValue (List.replicate 8 true) = 255 ∧ bitValue (true :: List.replicate 8 false) = 256 :=
  ⟨by simp [dropComment, isSpaceChar], by simp [isSpaceChar], .inr ⟨_, rfl⟩, rfl, rfl⟩
theorem witness_EqualReadsMakeEqualMemories : Memory.wf [(0, 1), (255, 2)] = true ∧
    ∀ a, Memory.read [(0, 1), (255, 2)] a = Memory.read [(0, 1), (255, 2)] a := ⟨by decide, fun _ => rfl⟩
theorem witness_DecodedBytesAreTheEncoding : decode [0x82, 0x00, 0x08, 0x47] = .ok (.ldi 0 8, [0x47]) := by rfl
theorem witness_DivCompletes : (at' 0 [] #v[5, 0, 0, 0, 0, 0, 0, 1]).x[7] ≠ 0 := by decide
theorem witness_RegisterIndexFaults : 8 ≤ (8#8).toNat ∧ 8 ≤ (255#8).toNat ∧ (7#8).toNat < 8 ∧
    ∃ t, exec (.ldi 7 8) State.reset = .next t := ⟨by decide, by decide, by decide, _, rfl⟩
theorem witness_ZeroDivisorFaults : State.reset.x[7] = 0 ∧ State.reset.faultCode ≠ .divisionByZero ∧
    ∃ t, exec (.div 0 7) State.reset = .next t ∧ t.faultCode = .divisionByZero := ⟨by decide, by decide, _, rfl, rfl⟩
theorem witness_EveryInstructionFrame : (∃ t, exec (.add 7 0) State.reset = .next t) ∧ (∃ t, exec (.prn 8) State.reset = .next t) ∧
    ∃ t, exec .hlt State.reset = .next t := ⟨⟨_, rfl⟩, ⟨_, rfl⟩, _, rfl⟩
theorem witness_AluResultsModulo256 : aluExact .add 255 255 = some 510 ∧ aluExact .sub 0 255 = some (-255) ∧
    aluExact .mul 255 255 = some 65025 ∧ aluExact .div 255 1 = some 255 ∧ aluExact .div 255 0 = none := by decide
theorem witness_WellFormedNeverFaultsOnIndex : (Instr.div 7 0).wellFormed = true ∧ State.reset.faultCode ≠ .outOfBoundsReg ∧
    ∃ t, exec (.div 7 0) State.reset = .next t := ⟨by decide, by decide, _, rfl⟩
theorem witness_NoStepUnlessEnabled : ¬ Stepping faultedState ∧ ¬ Stepping loading :=
  ⟨fun h => absurd h.1 (by decide), fun h => absurd h.2 (by decide)⟩
theorem witness_StepRunsTheDecodedInstruction : Stepping (at' 253 [0x82, 0x02, 0x2A]) ∧
    decode (bytesFrom (at' 253 [0x82, 0x02, 0x2A])) = .ok (.ldi 2 42, []) := ⟨⟨rfl, rfl⟩, rfl⟩
theorem witness_PlacedWordIsRun : (at' 253 []).runState = .running ∧ (at' 253 []).mem.wf = true ∧
    (at' 253 []).pc.toNat ≤ 253 ∧ decodeTableWord 24 0x0201A3 = some (.div 1 2) := by decide

theorem witness_CleanInstructionIsSafe : Stepping (at' 253 [0xA3, 0x07, 0x00] #v[1, 0, 0, 0, 0, 0, 0, 9]) ∧
    decode (bytesFrom (at' 253 [0xA3, 0x07, 0x00] #v[1, 0, 0, 0, 0, 0, 0, 9])) = .ok (.div 7 0, []) ∧
    (Instr.div 7 0).wellFormed = true ∧ regAt (at' 253 [0xA3, 0x07, 0x00] #v[1, 0, 0, 0, 0, 0, 0, 9]) 0 ≠ 0 :=
  ⟨⟨rfl, rfl⟩, rfl, by decide, by decide⟩

/-- Each outcome of the chain has a state: `op_b` and `op_a` out of memory, a bad index, completion at the last address. -/
theorem witness_LdiStep :
    (Stepping (at' 254 [0x82, 0x02]) ∧ cell (at' 254 [0x82, 0x02]) 0 = 0b10000010 ∧ 254 ≤ (at' 254 [0x82, 0x02]).pc.toNat) ∧
    (cell (at' 253 [0x82, 0x08]) 0 = 0b10000010 ∧ 8 ≤ (cell (at' 253 [0x82, 0x08]) 1).toNat) ∧
    (Stepping (at' 253 [0x82, 0x07]) ∧ cell (at' 253 [0x82, 0x07]) 0 = 0b10000010 ∧
      (at' 253 [0x82, 0x07]).pc.toNat < 254 ∧ (cell (at' 253 [0x82, 0x07]) 1).toNat < 8) :=
  ⟨⟨⟨rfl, rfl⟩, by decide⟩, by decide, ⟨rfl, rfl⟩, by decide⟩
theorem witness_PrnStep :
    (Stepping (at' 255 [0x47]) ∧ cell (at' 255 [0x47]) 0 = 0b01000111 ∧ (at' 255 [0x47]).pc.toNat < 256) ∧
    (cell (at' 254 [0x47, 0x08]) 0 = 0b01000111 ∧ 8 ≤ (cell (at' 254 [0x47, 0x08]) 1).toNat) ∧
    (Stepping (at' 254 [0x47, 0x07]) ∧ cell (at' 254 [0x47, 0x07]) 0 = 0b01000111 ∧
      (cell (at' 254 [0x47, 0x07]) 1).toNat < 8) :=
  ⟨⟨⟨rfl, rfl⟩, by decide⟩, by decide, ⟨rfl, rfl⟩, by decide⟩
theorem witness_HltStep : (Stepping (at' 255 [0x01]) ∧ (at' 255 [0x01]).pc.toNat < 256 ∧ cell (at' 255 [0x01]) 0 = 0b00000001) ∧
    (at' 255 [0x01]).runState = .running ∧ ∃ t, step (at' 255 [0x01]) = .next t ∧ t.runState = .halted :=
  ⟨⟨⟨rfl, rfl⟩, by decide⟩, rfl, _, rfl, rfl⟩
theorem witness_AluStep :
    (Stepping (at' 254 [0xA3, 0x09]) ∧ cell (at' 254 [0xA3, 0x09]) 0 = aluByte .div ∧ 254 ≤ (at' 254 [0xA3, 0x09]).pc.toNat) ∧
    (cell (at' 253 [0xA0, 0x08]) 0 = aluByte .add ∧ 8 ≤ (cell (at' 253 [0xA0, 0x08]) 1).toNat) ∧
    (cell (at' 253 [0xA1, 0x07, 0x08]) 0 = aluByte .sub ∧ 8 ≤ (cell (at' 253 [0xA1, 0x07, 0x08]) 2).toNat) ∧
    (cell (at' 253 [0xA3, 0x07, 0x07]) 0 = aluByte .div ∧ regAt (at' 253 [0xA3, 0x07, 0x07]) 7 = 0) ∧
    (Stepping (at' 253 [0xA2, 0x07, 0x00]) ∧ cell (at' 253 [0xA2, 0x07, 0x00]) 0 = aluByte .mul ∧
      (cell (at' 253 [0xA2, 0x07, 0x00]) 1).toNat < 8 ∧ (cell (at' 253 [0xA2, 0x07, 0x00]) 2).toNat < 8) :=
  ⟨⟨⟨rfl, rfl⟩, by decide⟩, by decide, by decide, by decide, ⟨rfl, rfl⟩, by decide⟩
theorem witness_UnknownOpcodeFaults : Stepping (at' 255 [0xC0]) ∧ (at' 255 [0xC0]).pc.toNat < 256 ∧
    cell (at' 255 [0xC0]) 0 ∉ definedBytes := ⟨⟨rfl, rfl⟩, by decide⟩
/-- Every position of R127 and no fault at all. -/
theorem witness_FirstFaultWins :
    (Stepping (at' 256 []) ∧ firstFault (at' 256 []) = some (.outOfBoundsMem, 256)) ∧
    firstFault (at' 255 [0xFF]) = some (.unknownOpcode, 255) ∧ firstFault (at' 255 [0xA3]) = some (.outOfBoundsMem, 256) ∧
    firstFault (at' 254 [0xA3, 0x09]) = some (.outOfBoundsMem, 256) ∧
    firstFault (at' 253 [0xA3, 0x08, 0x08]) = some (.outOfBoundsReg, 8) ∧
    firstFault (at' 253 [0xA0, 0x07, 0x09]) = some (.outOfBoundsReg, 9) ∧
    firstFault (at' 253 [0xA3, 0x07, 0x06]) = some (.divisionByZero, 6) ∧
    firstFault (at' 253 [0x82, 0x07, 0x09]) = none ∧ firstFault (at' 255 [0x01]) = none :=
  ⟨⟨⟨rfl, rfl⟩, by decide⟩, by decide⟩
theorem witness_FaultsArePrecise : Stepping State.reset ∧ ∃ t, step State.reset = .next t ∧ t.runState = .faulted :=
  ⟨⟨rfl, rfl⟩, _, rfl, rfl⟩
theorem witness_FaultRecordIsWrittenOnce : faultedState.runState = .faulted ∧
    Event.host .reset ∉ [Event.coreStep, .host (.setRunEn false), .coreStep] ∧
    ∃ t, events [.coreStep, .host (.setRunEn false), .coreStep] faultedState = .next t := ⟨by decide, by decide, _, rfl⟩
theorem witness_PcAdvancesByWidth :
    (Stepping (at' 253 [0x82, 0x07]) ∧ ∃ t, step (at' 253 [0x82, 0x07]) = .next t ∧ t.runState = .running) ∧
    (Stepping (at' 255 [0x47]) ∧ ∃ t, step (at' 255 [0x47]) = .next t ∧ t.runState = .faulted) :=
  ⟨⟨⟨rfl, rfl⟩, _, rfl, rfl⟩, ⟨rfl, rfl⟩, _, rfl, rfl⟩
theorem witness_PcNeverDecreases : ∃ t, step (at' 254 [0x47, 0x00]) = .next t ∧ t.runState ≠ .halted :=
  ⟨_, rfl, by decide⟩
theorem witness_StepWritesOnlyItsDestination : ∃ t, step (at' 0 [0x82, 0x07, 0xFF]) = .next t ∧
    t.x[7] ≠ (at' 0 [0x82, 0x07, 0xFF]).x[7] := ⟨_, rfl, by decide⟩
theorem witness_OutputOnlyFromPrn : (∃ t, step (at' 254 [0x47, 0x07]) = .next t ∧ t.runState = .running ∧
    cell (at' 254 [0x47, 0x07]) 0 = 0x47) ∧ (∃ t, step (at' 255 [0x47]) = .next t ∧ t.runState = .faulted) ∧
    ∃ t, hostMove (.load 255 1) loading = .next t := ⟨⟨_, rfl, by decide⟩, ⟨_, rfl, rfl⟩, _, rfl⟩
/-- Two memories that differ just after a PRN. -/
theorem witness_StepReadsOnlyItsInstruction :
    Memory.read [(0, 0x47), (2, 9)] (at' 0 [0x47, 0x00]).pc.toNat = cell (at' 0 [0x47, 0x00]) 0 ∧
    (∀ k, 1 ≤ k → k ≤ ((cell (at' 0 [0x47, 0x00]) 0 >>> 6) &&& 3).toNat →
      Memory.read [(0, 0x47), (2, 9)] ((at' 0 [0x47, 0x00]).pc.toNat + k) = cell (at' 0 [0x47, 0x00]) k) ∧
    ∃ t, step (at' 0 [0x47, 0x00]) = .next t := by
  refine ⟨by decide, fun k h1 h2 => ?_, _, rfl⟩
  have : ((cell (at' 0 [0x47, 0x00]) 0 >>> 6) &&& 3).toNat = 1 := by decide
  obtain rfl : k = 1 := by omega
  decide
theorem witness_FreeValueOnlyInHaltedPc : (∃ t, step (at' 0 [0x01]) = .next t ∧ t.runState = .halted) ∧
    ∃ t, step (at' 0 [0x47]) = .next t ∧ t.runState ≠ .halted := ⟨⟨_, rfl, rfl⟩, _, rfl, by decide⟩
/-- The invariant holds at the top of memory, and a step is taken there. -/
theorem witness_StepKeepsInvariant : Inv (at' 254 [0x47, 0x07]) ∧ Inv (at' 256 []) ∧ Inv faultedState ∧
    ∃ t, step (at' 254 [0x47, 0x07]) = .next t := ⟨by decide, by decide, by decide, _, rfl⟩
theorem witness_HostMovesKeepInvariant : Inv loading ∧ (∃ t, hostMove (.load 255 1) loading = .next t) ∧
    (∃ t, hostMove (.load 256 1) loading = .next t) ∧ ∃ t, hostMove .reset loading = .next t :=
  ⟨by decide, ⟨_, rfl⟩, ⟨_, rfl⟩, _, rfl⟩
theorem witness_ReachableStatesMeetInvariant :
    ∃ t, events [.host (.setRunEn false), .host (.load 0 0x01), .host (.setRunEn true), .coreStep] State.reset = .next t :=
  ⟨_, rfl⟩
theorem witness_MemoryIsConstantOverARun : ∃ t, Sys2Proof.core.run 2 (at' 254 [0x47, 0x07]) = .next t := ⟨_, rfl⟩
theorem witness_EveryRunEnds : (at' 254 [0x47, 0x07]).runEn = true ∧
    ∃ t, Sys2Proof.core.run 1 (at' 254 [0x47, 0x07]) = .next t ∧ t.runState = .running := ⟨rfl, _, rfl, rfl⟩
theorem witness_FirstStepEndsLoadPhase : Stepping (at' 0 [0x47, 0x00]) ∧ inLoadPhase { at' 0 [0x47, 0x00] with runEn := false } = true ∧
    ∃ t, step (at' 0 [0x47, 0x00]) = .next t := ⟨⟨rfl, rfl⟩, by decide, _, rfl⟩

/-- An `EXIT_STATUS` that meets the constraints. -/
def exitStatus : EndReason → Int
  | .halted => 0
  | .fault .none => 1
  | .fault .unknownOpcode => 2
  | .fault .outOfBoundsMem => 3
  | .fault .outOfBoundsReg => 4
  | .fault .divisionByZero => 5
  | .fileNotFound => 6
  | .malformedToken => 7
  | .loadOutOfBounds => 8

theorem witness_ExitZeroExactlyOnHalt : ExitStatusOk exitStatus ∧ faultedState.runState = .faulted := by
  refine ⟨⟨rfl, ?_⟩, by decide⟩
  intro a b h
  rcases a with _ | a | _ | _ | _ <;> rcases b with _ | b | _ | _ | _ <;>
    (try cases a) <;> (try cases b) <;> first | rfl | exact absurd h (by decide)

end Sys2Proof.Tests
end

section
/-! SUPPORT. What one line of an image text is parsed to: its comment and the white space around its token fall away, and a
token of binary digits has its base-2 value (R5, R153, R154). Settles O8 and O55. -/

namespace Sys2Proof.Machine

open Sys2Proof.Stated

/-! ### The token of a line -/

/-- The comment ends the token, and a line need not have one (R153). -/
theorem dropComment_append {body tail : List Char} (hb : ∀ c ∈ body, c ≠ '#')
    (ht : tail = [] ∨ ∃ comment, tail = '#' :: comment) : dropComment (body ++ tail) = body := by
  rw [dropComment, List.takeWhile_append_of_pos (by simpa using hb)]
  obtain rfl | ⟨comment, rfl⟩ := ht <;> simp

/-- White space alone strips to nothing (R153). -/
theorem strip_blank {line : List Char} (h : ∀ c ∈ line, isSpaceChar c = true) : strip line = [] := by
  rw [strip, List.dropWhile_eq_nil_iff.mpr h]; rfl

/-- White space before a token is dropped, whatever follows the token. -/
theorem dropWhile_space_append {before token : List Char} (rest : List Char)
    (hb : ∀ c ∈ before, isSpaceChar c = true) (hne : token ≠ []) (ht : ∀ c ∈ token, isSpaceChar c = false) :
    (before ++ (token ++ rest)).dropWhile isSpaceChar = token ++ rest := by
  obtain ⟨c, cs, rfl⟩ := List.exists_cons_of_ne_nil hne
  rw [List.dropWhile_append_of_pos hb, List.cons_append, List.dropWhile_cons_of_neg (by simp [ht])]

/-- White space around a token without white space is stripped, and the token is left (R153). -/
theorem strip_surrounded {before token after : List Char} (hb : ∀ c ∈ before, isSpaceChar c = true) (hne : token ≠ [])
    (ht : ∀ c ∈ token, isSpaceChar c = false) (ha : ∀ c ∈ after, isSpaceChar c = true) :
    strip (before ++ token ++ after) = token := by
  have front := dropWhile_space_append after hb hne ht
  have back := dropWhile_space_append (before := after.reverse) (token := token.reverse) []
    (by simpa using ha) (by simpa using hne) (by simpa using ht)
  rw [strip, List.append_assoc, front, List.reverse_append, ← List.append_nil token.reverse, back, List.append_nil,
    List.reverse_reverse]

/-- `#` is not white space. -/
theorem ne_hash_of_isSpaceChar {c : Char} (h : isSpaceChar c = true) : c ≠ '#' := by
  rintro rfl; exact absurd h (by decide)

/-! ### Tokens of binary digits -/

/-- A binary digit is neither white space nor `#`. -/
theorem of_mem_bitChars {ds : List Bool} {c : Char} (h : c ∈ bitChars ds) : isSpaceChar c = false ∧ c ≠ '#' := by
  obtain ⟨d, -, rfl⟩ := List.mem_map.mp h
  cases d <;> decide

/-- The model's base-2 value of a token of binary digits, on from any value (R5, R153). -/
theorem binaryValue_bitChars (acc : Nat) (ds : List Bool) :
    binaryValue acc (bitChars ds) = some (ds.foldl (fun n d => 2 * n + d.toNat) acc) := by
  induction ds generalizing acc with
  | nil => rfl
  | cons d ds ih => cases d <;> exact ih _

/-- A line whose token is binary digits loads their value, or is malformed where that does not fit a byte (R153, R154). -/
theorem parseLine_of_strip_eq_bitChars {line : List Char} {ds : List Bool} (hne : ds ≠ [])
    (h : strip (dropComment line) = bitChars ds) :
    parseLine line =
      if bitValue ds ≤ 255 then .ok (some (BitVec.ofNat 8 (bitValue ds))) else .error (.malformedToken (bitChars ds)) := by
  obtain ⟨d, ds, rfl⟩ := List.exists_cons_of_ne_nil hne
  have hv : binaryValue 0 (bitChars (d :: ds)) = some (bitValue (d :: ds)) := binaryValue_bitChars 0 _
  rw [bitChars, List.map_cons] at h hv
  rw [parseLine, h]
  simp only [hv, bitChars, List.map_cons]

/-- A line without a token loads nothing (R153). -/
theorem parseLine_of_blank {line : List Char} (h : ∀ c ∈ dropComment line, isSpaceChar c = true) :
    parseLine line = .ok none := by
  rw [parseLine, strip_blank h]

/-- A token of binary digits, with white space around it and a comment after it or not (R153, R154). -/
theorem parseLine_bitChars {ds : List Bool} {before after tail : List Char} (hne : ds ≠ [])
    (hb : ∀ c ∈ before, isSpaceChar c = true) (ha : ∀ c ∈ after, isSpaceChar c = true)
    (ht : tail = [] ∨ ∃ comment, tail = '#' :: comment) :
    parseLine (before ++ bitChars ds ++ after ++ tail) =
      if bitValue ds ≤ 255 then .ok (some (BitVec.ofNat 8 (bitValue ds))) else .error (.malformedToken (bitChars ds)) := by
  have noHash : ∀ c ∈ before ++ bitChars ds ++ after, c ≠ '#' := by
    intro c hc
    obtain (hc | hc) | hc := by simpa only [List.mem_append] using hc
    · exact ne_hash_of_isSpaceChar (hb c hc)
    · exact (of_mem_bitChars hc).2
    · exact ne_hash_of_isSpaceChar (ha c hc)
  apply parseLine_of_strip_eq_bitChars hne
  rw [dropComment_append noHash ht]
  exact strip_surrounded hb (by simpa [bitChars] using hne) (fun c hc => (of_mem_bitChars hc).1) ha

/-! ### The digits of a byte -/

/-- The bits of a byte, most significant first. -/
def bitsOf (b : Byte) : List Bool := (List.range 8).map b.getMsbD

theorem digits_eq_bitChars (b : Byte) : digits b = bitChars (bitsOf b) := by
  simp [digits, bitChars, bitsOf]

theorem bitsOf_ne_nil (b : Byte) : bitsOf b ≠ [] := by simp [bitsOf]

/-- The `k` most significant bits of a word have the value of its high part (R5). -/
theorem bitValue_map_getMsbD {w : Nat} (x : BitVec w) {k : Nat} (hk : k ≤ w) :
    bitValue ((List.range k).map x.getMsbD) = x.toNat / 2 ^ (w - k) := by
  induction k with
  | zero => simp [bitValue, Nat.div_eq_of_lt x.isLt]
  | succ k ih =>
    have low : (x.getMsbD k).toNat = x.toNat / 2 ^ (w - (k + 1)) % 2 := by
      have hi : w - 1 - k = w - (k + 1) := by omega
      rw [BitVec.getMsbD, hi, BitVec.getLsbD, decide_eq_true (by omega : k < w), Bool.true_and, Nat.toNat_testBit]
    have high : x.toNat / 2 ^ (w - k) = x.toNat / 2 ^ (w - (k + 1)) / 2 := by
      rw [Nat.div_div_eq_div_mul, ← Nat.pow_succ]; congr 2; omega
    have snoc : bitValue ((List.range (k + 1)).map x.getMsbD) =
        2 * bitValue ((List.range k).map x.getMsbD) + (x.getMsbD k).toNat := by
      simp [bitValue, List.range_succ]
    rw [snoc, ih (by omega), high, low, Nat.div_add_mod]

/-- The eight bits of a byte have its value. -/
theorem bitValue_bitsOf (b : Byte) : bitValue (bitsOf b) = b.toNat := by
  rw [bitsOf, bitValue_map_getMsbD b (Nat.le_refl 8), Nat.sub_self, pow_zero, Nat.div_one]

/-- The eight digits of a byte load it, whatever white space and comment follow (R5, R153). -/
theorem parseLine_digits (b : Byte) {after tail : List Char} (ha : ∀ c ∈ after, isSpaceChar c = true)
    (ht : tail = [] ∨ ∃ comment, tail = '#' :: comment) : parseLine (digits b ++ after ++ tail) = .ok (some b) := by
  have h := parseLine_bitChars (before := []) (bitsOf_ne_nil b) (by simp) ha ht
  have fits : b.toNat ≤ 255 := by omega
  rwa [bitValue_bitsOf, if_pos fits, BitVec.ofNat_toNat, BitVec.setWidth_eq, ← digits_eq_bitChars, List.nil_append] at h

/-- Settles O8: both lines are the digits of the byte, then white space, then a comment or none. -/
theorem binaryTokenLoadsItsByte : Obligations.BinaryTokenLoadsItsByte := by
  unfold Obligations.BinaryTokenLoadsItsByte
  intro b comment
  constructor
  · simpa using parseLine_digits b (after := []) (by simp) (.inl rfl)
  · simpa using parseLine_digits b (after := [' ']) (by simp [isSpaceChar]) (.inr ⟨comment, rfl⟩)

/-- Settles O55, from what a blank line and a token of binary digits parse to. -/
theorem lineLoadsItsTokenOrNothing : Obligations.LineLoadsItsTokenOrNothing := by
  unfold Obligations.LineLoadsItsTokenOrNothing
  exact ⟨fun _ => parseLine_of_blank, fun _ _ _ _ => parseLine_bitChars⟩

end Sys2Proof.Machine
end

section
/-! SUPPORT. The exact effect of each instruction, with the operand it comes from, and what follows for one instruction: its
frame, its register index faults, and their absence in a well-formed instruction (R13, R14, R76, R126). Settles O21, O23
and O25. -/

namespace Sys2Proof.Machine

open Sys2Proof.Stated

/-! ### The ALU's four instructions as one -/

/-- The four ALU instructions share one handler (R105). -/
theorem exec_alu (op : AluOp) (opA opB : Byte) (s : State) :
    exec ((aluOpcode op).withOperands opA opB) s = retire (aluOpcode op) s (aluHandler op opA opB s) := by
  cases op <;> rfl

@[simp] theorem nops_aluOpcode (op : AluOp) : nops (aluOpcode op).byte = 2 := by cases op <;> rfl

@[simp] theorem destination_alu (op : AluOp) (opA opB : Byte) :
    destination ((aluOpcode op).withOperands opA opB) = some opA := by cases op <;> rfl

/-! ### Register operands -/

/-- The operand bytes an instruction uses as register indices, in the order it checks them (R14, R53). -/
def regOperands : Instr → List Byte
  | .ldi opA _ => [opA]
  | .prn opA => [opA]
  | .hlt => []
  | .add opA opB => [opA, opB]
  | .sub opA opB => [opA, opB]
  | .mul opA opB => [opA, opB]
  | .div opA opB => [opA, opB]

@[simp] theorem regOperands_alu (op : AluOp) (opA opB : Byte) :
    regOperands ((aluOpcode op).withOperands opA opB) = [opA, opB] := by cases op <;> rfl

/-- Register operands are operand bytes. -/
theorem mem_regOperands_withOperands {op : Opcode} {opA opB b : Byte} (h : b ∈ regOperands (op.withOperands opA opB)) :
    b = opA ∨ b = opB := by
  cases op <;> simp [Opcode.withOperands, regOperands] at h <;> simp [h]

theorem wellFormed_iff (i : Instr) : i.wellFormed = true ↔ ∀ b ∈ regOperands i, b.toNat < 8 := by
  cases i <;> simp [Instr.wellFormed, regOperands, isRegIndex]

/-- An operand byte that passes the check is the byte of the register it names. -/
theorem eq_ofNat_of_toNat_eq {b : Byte} {i : Fin 8} (h : b.toNat = i.val) : b = BitVec.ofNat 8 i.val := by
  rw [← h, BitVec.ofNat_toNat, BitVec.setWidth_eq]

/-! ### An instruction, check by check -/

theorem exec_ldi_lt {opA : Byte} {a : Fin 8} (ha : opA.toNat = a.val) (v : Byte) (s : State) :
    exec (.ldi opA v) s = .next ((s.setReg a v).advance 2) := by
  rw [exec, execLdi, regCheck_ok_iff.2 ha]; rfl

theorem exec_ldi_ge {opA : Byte} (ha : 8 ≤ opA.toNat) (v : Byte) (s : State) :
    exec (.ldi opA v) s = .next (takeFault (.outOfBoundsReg opA) s) := by
  rw [exec, execLdi, regCheck_ge ha]; rfl

theorem exec_prn_lt {opA : Byte} {a : Fin 8} (ha : opA.toNat = a.val) (s : State) :
    exec (.prn opA) s = .next ((s.emit (s.reg a)).advance 1) := by
  rw [exec, execPrn, regCheck_ok_iff.2 ha]; rfl

theorem exec_prn_ge {opA : Byte} (ha : 8 ≤ opA.toNat) (s : State) :
    exec (.prn opA) s = .next (takeFault (.outOfBoundsReg opA) s) := by
  rw [exec, execPrn, regCheck_ge ha]; rfl

section Alu

variable {opA opB : Byte} {a b : Fin 8} (op : AluOp) (s : State)

theorem exec_alu_opA_ge (ha : 8 ≤ opA.toNat) :
    exec ((aluOpcode op).withOperands opA opB) s = .next (takeFault (.outOfBoundsReg opA) s) := by
  rw [exec_alu, aluHandler, regCheck_ge ha]; rfl

theorem exec_alu_opB_ge (ha : opA.toNat = a.val) (hb : 8 ≤ opB.toNat) :
    exec ((aluOpcode op).withOperands opA opB) s = .next (takeFault (.outOfBoundsReg opB) s) := by
  rw [exec_alu, aluHandler, regCheck_ok_iff.2 ha, regCheck_ge hb]; rfl

theorem exec_alu_none (ha : opA.toNat = a.val) (hb : opB.toNat = b.val) (h : aluExact op (s.reg a) (s.reg b) = none) :
    exec ((aluOpcode op).withOperands opA opB) s = .next (takeFault (.divisionByZero opB) s) := by
  simp [exec_alu, aluHandler, regCheck_ok_iff.2 ha, regCheck_ok_iff.2 hb, h]

theorem exec_alu_some {r : Int} (ha : opA.toNat = a.val) (hb : opB.toNat = b.val)
    (h : aluExact op (s.reg a) (s.reg b) = some r) :
    exec ((aluOpcode op).withOperands opA opB) s = .next ((s.setReg a (narrow r)).advance 2) := by
  simp [exec_alu, aluHandler, regCheck_ok_iff.2 ha, regCheck_ok_iff.2 hb, h]

end Alu

/-! ### Every effect of an instruction -/

/-- What one instruction or one step does to a state. -/
inductive Effect where
  /-- Nothing. -/
  | idle
  /-- A fault is taken. -/
  | fault (f : Fault)
  /-- A register is written, and the pc moves by 3. -/
  | write (a : Fin 8) (v : Byte)
  /-- A value is output, and the pc moves by 2. -/
  | output (v : Byte)
  /-- The core halts. -/
  | halt

/-- The state after an effect. -/
def Effect.apply : Effect → State → State
  | .idle, s => s
  | .fault f, s => takeFault f s
  | .write a v, s => (s.setReg a v).advance 2
  | .output v, s => (s.emit v).advance 1
  | .halt, s => s.halt

/-- The effects instruction `i` can have on `s`, each with the operand it comes from (R76, R126). -/
inductive ExecEffect (i : Instr) (s : State) : Effect → Prop where
  /-- A register operand of 8 or more (R14). -/
  | badIndex (b : Byte) (operand : b ∈ regOperands i) (large : 8 ≤ b.toNat) : ExecEffect i s (.fault (.outOfBoundsReg b))
  /-- DIV by a register that holds 0 (R124). -/
  | zeroDivisor (opA opB : Byte) (b : Fin 8) (isDiv : i = .div opA opB) (index : opB.toNat = b.val)
      (zero : s.reg b = 0) : ExecEffect i s (.fault (.divisionByZero opB))
  /-- LDI or an ALU instruction completes (R90, R105). -/
  | write (a : Fin 8) (v : Byte) (dest : destination i = some (BitVec.ofNat 8 a.val)) : ExecEffect i s (.write a v)
  /-- PRN completes (R95). -/
  | output (a : Fin 8) (isPrn : i = .prn (BitVec.ofNat 8 a.val)) : ExecEffect i s (.output (s.reg a))
  /-- HLT completes (R96). -/
  | halt (isHlt : i = .hlt) : ExecEffect i s .halt

/-- `i` has one effect on `s`, the same on every state with the registers of `s`: an instruction reads nothing else. -/
def HasEffect (i : Instr) (s : State) : Prop :=
  ∃ e, ExecEffect i s e ∧ ∀ s' : State, s'.x = s.x → exec i s' = .next (e.apply s')

theorem reg_congr {s s' : State} (h : s'.x = s.x) (i : Fin 8) : s'.reg i = s.reg i := by
  simp [State.reg, h]

/-- An operand byte is 8 or more, or names a register (R14). -/
theorem ge_or_names (b : Byte) : 8 ≤ b.toNat ∨ ∃ i : Fin 8, b.toNat = i.val := by
  rcases Nat.lt_or_ge b.toNat 8 with h | h
  · exact .inr ⟨⟨_, h⟩, rfl⟩
  · exact .inl h

theorem hasEffect_alu (op : AluOp) (opA opB : Byte) (s : State) : HasEffect ((aluOpcode op).withOperands opA opB) s := by
  obtain ha | ⟨a, ha⟩ := ge_or_names opA
  · exact ⟨_, .badIndex opA (by simp) ha, fun s' _ => exec_alu_opA_ge op s' ha⟩
  obtain hb | ⟨b, hb⟩ := ge_or_names opB
  · exact ⟨_, .badIndex opB (by simp) hb, fun s' _ => exec_alu_opB_ge op s' ha hb⟩
  cases he : aluExact op (s.reg a) (s.reg b) with
  | none =>
    obtain ⟨rfl, zero⟩ := aluExact_eq_none_iff.1 he
    exact ⟨_, .zeroDivisor opA opB b rfl hb zero, fun s' hx =>
      exec_alu_none .div s' ha hb (by rwa [reg_congr hx, reg_congr hx])⟩
  | some r =>
    exact ⟨_, .write a (narrow r) (by rw [destination_alu, eq_ofNat_of_toNat_eq ha]), fun s' hx =>
      exec_alu_some op s' ha hb (by rwa [reg_congr hx, reg_congr hx])⟩

theorem hasEffect (i : Instr) (s : State) : HasEffect i s := by
  cases i with
  | ldi opA opB =>
    obtain ha | ⟨a, ha⟩ := ge_or_names opA
    · exact ⟨_, .badIndex opA (by simp [regOperands]) ha, fun s' _ => exec_ldi_ge ha opB s'⟩
    · exact ⟨_, .write a opB (congrArg some (eq_ofNat_of_toNat_eq ha)), fun s' _ => exec_ldi_lt ha opB s'⟩
  | prn opA =>
    obtain ha | ⟨a, ha⟩ := ge_or_names opA
    · exact ⟨_, .badIndex opA (by simp [regOperands]) ha, fun s' _ => exec_prn_ge ha s'⟩
    · exact ⟨_, .output a (congrArg Instr.prn (eq_ofNat_of_toNat_eq ha)), fun s' hx => by
        rw [exec_prn_lt ha, reg_congr hx]; rfl⟩
  | hlt => exact ⟨_, .halt rfl, fun _ _ => rfl⟩
  | add opA opB => exact hasEffect_alu .add opA opB s
  | sub opA opB => exact hasEffect_alu .sub opA opB s
  | mul opA opB => exact hasEffect_alu .mul opA opB s
  | div opA opB => exact hasEffect_alu .div opA opB s

/-- What an instruction's next state can be. -/
theorem exec_next {i : Instr} {s t : State} (h : exec i s = .next t) : ∃ e, ExecEffect i s e ∧ t = e.apply s := by
  obtain ⟨e, he, run⟩ := hasEffect i s
  exact ⟨e, he, Host.Outcome.next.inj (h.symm.trans (run s rfl))⟩

/-! ### Register index faults (R14, R123) -/

/-- The reader's words for the register index fault, taken (R126). -/
theorem faulted_outOfBoundsReg (b : Byte) (s : State) :
    faulted s .outOfBoundsReg (info b) = takeFault (.outOfBoundsReg b) s :=
  congrArg (faulted s .outOfBoundsReg) (BitVec.ofNat_toNat 9 b)

/-- Settles O21: every ALU instruction is the common handler, which checks `op_a`, then `op_b`; LDI checks `op_a` alone. -/
theorem registerIndexFaults : Obligations.RegisterIndexFaults := by
  unfold Obligations.RegisterIndexFaults
  simp only [faulted_outOfBoundsReg]
  refine ⟨fun opA s ha => ⟨fun v => exec_ldi_ge ha v s, exec_prn_ge ha s, fun opB => ?_⟩,
    fun opA opB s ha hb => ?_, fun opA v s t ha h => ?_⟩
  · exact ⟨exec_alu_opA_ge .add s ha, exec_alu_opA_ge .sub s ha, exec_alu_opA_ge .mul s ha, exec_alu_opA_ge .div s ha⟩
  · have names : opA.toNat = (⟨opA.toNat, ha⟩ : Fin 8).val := rfl
    exact ⟨exec_alu_opB_ge .add s names hb, exec_alu_opB_ge .sub s names hb, exec_alu_opB_ge .mul s names hb,
      exec_alu_opB_ge .div s names hb⟩
  · rw [exec_ldi_lt (a := ⟨opA.toNat, ha⟩) rfl v s] at h
    cases h
    rfl

/-- Settles O25: a register index fault comes from a register operand of 8 or more, and there is none. -/
theorem wellFormedNeverFaultsOnIndex : Obligations.WellFormedNeverFaultsOnIndex := by
  unfold Obligations.WellFormedNeverFaultsOnIndex
  intro i s t hwf h hs
  obtain ⟨e, effect, rfl⟩ := exec_next h
  cases effect with
  | badIndex b operand large =>
    have := (wellFormed_iff i).1 hwf b operand
    omega
  | zeroDivisor => simp [Effect.apply, Fault.code]
  | write | output | halt => exact hs

/-! ### The frame of an instruction -/

/-- A completed write changes its destination alone (R13). -/
theorem setReg_x_of_destination_ne {i : Instr} {a r : Fin 8} (s : State) (v : Byte)
    (dest : destination i = some (BitVec.ofNat 8 a.val)) (hr : destination i ≠ some (BitVec.ofNat 8 r.val)) :
    (s.setReg a v).x[r] = s.x[r] :=
  reg_setReg_other s (fun e : r = a => hr (e ▸ dest)) v

/-- Settles O23, effect by effect. -/
theorem everyInstructionFrame : Obligations.EveryInstructionFrame := by
  unfold Obligations.EveryInstructionFrame
  intro i s t h
  obtain ⟨e, effect, rfl⟩ := exec_next h
  cases effect with
  | badIndex | zeroDivisor =>
    exact ⟨fun _ => rfl, rfl, rfl, fun _ _ => rfl, fun _ => rfl, fun _ => rfl,
      .inr (.inr ⟨rfl, by simp [Effect.apply, Fault.code]⟩)⟩
  | write a v dest =>
    exact ⟨fun _ => rfl, rfl, rfl, fun _ hr => setReg_x_of_destination_ne s v dest hr, fun _ => rfl, fun _ => rfl,
      .inl ⟨rfl, rfl, rfl⟩⟩
  | output a isPrn =>
    exact ⟨fun _ => rfl, rfl, rfl, fun _ _ => rfl, fun notPrn => absurd isPrn (notPrn _), fun _ => rfl,
      .inl ⟨rfl, rfl, rfl⟩⟩
  | halt isHlt =>
    exact ⟨fun _ => rfl, rfl, rfl, fun _ _ => rfl, fun _ => rfl, fun notHlt => absurd isHlt notHlt,
      .inr (.inl ⟨isHlt, rfl, rfl, rfl⟩)⟩

end Sys2Proof.Machine
end

section
/-! SUPPORT. The invariant: no fault record before a fault, a true record after one, and so every event keeps it (R16, R19,
R121 to R124, R126). Settles O2, O45 and O47. -/

namespace Sys2Proof.Machine

open Sys2Proof.Safety Sys2Proof.Stated

/-! ### What a fetched instruction says of memory -/

/-- A fetched instruction is the bytes at `pc` (R71 to R75). -/
theorem of_fetchInstr_ok {s : State} {i : Instr} (h : fetchInstr s = .ok i) :
    ∃ op : Opcode, cell s 0 = op.byte ∧ i = op.withOperands (cell s 1) (cell s 2) := by
  obtain ⟨-, e⟩ | ⟨-, -, e⟩ | ⟨-, -, -, -, e⟩ | ⟨-, -, -, -, e⟩ | ⟨op, -, hop, e⟩ := fetchInstr_cases s <;>
    rw [e] at h <;> cases h
  exact ⟨op, hop, rfl⟩

/-- A fetched DIV is a DIV in memory. -/
theorem cells_of_fetchInstr_div {s : State} {opA opB : Byte} (h : fetchInstr s = .ok (.div opA opB)) :
    cell s 0 = 0xA3 ∧ cell s 2 = opB := by
  obtain ⟨op, hop, e⟩ := of_fetchInstr_ok h
  cases op <;> cases e
  exact ⟨hop, rfl⟩

/-- A register operand of a fetched instruction is one of the two bytes after the opcode. -/
theorem cell_of_mem_regOperands {s : State} {i : Instr} {b : Byte} (h : fetchInstr s = .ok i) (hb : b ∈ regOperands i) :
    b = cell s 1 ∨ b = cell s 2 := by
  obtain ⟨op, -, rfl⟩ := of_fetchInstr_ok h
  exact mem_regOperands_withOperands hb

/-! ### The record of a fault just taken -/

@[simp] theorem cell_takeFault (f : Fault) (s : State) (k : Nat) : cell (takeFault f s) k = cell s k := rfl

/-- The 9 bits of `fault_info` hold a byte (R19). -/
theorem toNat_zeroExtend_info (b : Byte) : (b.zeroExtend 9).toNat = b.toNat :=
  BitVec.toNat_setWidth_of_le (by decide)

@[simp] theorem toNat_info_unknownOpcode (ir : Byte) : (Fault.unknownOpcode ir).info.toNat = ir.toNat :=
  toNat_zeroExtend_info ir
@[simp] theorem toNat_info_outOfBoundsReg (index : Byte) : (Fault.outOfBoundsReg index).info.toNat = index.toNat :=
  toNat_zeroExtend_info index
@[simp] theorem toNat_info_divisionByZero (opB : Byte) : (Fault.divisionByZero opB).info.toNat = opB.toNat :=
  toNat_zeroExtend_info opB

/-- A fault of the fetch is recorded truly where the pc is inside memory or just beyond (R121, R122). -/
theorem recordTrue_of_fetchInstr_error {s : State} {f : Fault} (hpc : s.pc.toNat ≤ 256) (h : fetchInstr s = .error f) :
    recordTrue (takeFault f s) = true := by
  obtain ⟨hge, e⟩ | ⟨hlt, hl, e⟩ | ⟨-, hp, -, -, e⟩ | ⟨-, hp, -, -, e⟩ | ⟨_, -, -, e⟩ := fetchInstr_cases s <;>
    rw [e] at h <;> cases h
  · have top : s.pc.toNat = 256 := by omega
    simp [recordTrue, Fault.code, Fault.info, top]
  · have hl : lookup (cell s 0) = none := hl
    have byte : Memory.read s.mem s.pc.toNat = cell s 0 := rfl
    simp [recordTrue, Fault.code, hlt, hl, byte]
  · simp [recordTrue, Fault.code, Fault.info, hp]
  · simp [recordTrue, Fault.code, Fault.info, hp]

/-- A register index fault of a fetched instruction is recorded truly (R123). -/
theorem recordTrue_outOfBoundsReg {s : State} {i : Instr} {b : Byte} (h : fetchInstr s = .ok i) (hb : b ∈ regOperands i)
    (large : 8 ≤ b.toNat) : recordTrue (takeFault (.outOfBoundsReg b) s) = true := by
  obtain e | e := cell_of_mem_regOperands h hb <;> simp [recordTrue, Fault.code, large, ← e]

/-- A zero divisor's fault of a fetched instruction is recorded truly (R124). -/
theorem recordTrue_divisionByZero {s : State} {opA opB : Byte} {b : Fin 8} (h : fetchInstr s = .ok (.div opA opB))
    (index : opB.toNat = b.val) (zero : s.reg b = 0) : recordTrue (takeFault (.divisionByZero opB) s) = true := by
  obtain ⟨h0, h2⟩ := cells_of_fetchInstr_div h
  have reads : s.x[b.val] = 0#8 := zero
  simp [recordTrue, Fault.code, h0, h2, index, reads]

/-! ### The invariant, with and without a fault -/

/-- In RUNNING no fault is recorded (R19). -/
theorem no_record_of_running {s : State} (hi : Inv s) (hr : s.runState = .running) :
    s.faultCode = .none ∧ s.faultInfo = 0 := by
  obtain ⟨-, -, hiff, hrec⟩ := hi
  have code : s.faultCode = .none := by simpa [hr] using hiff
  refine ⟨code, ?_⟩
  simpa [recordTrue, code] using hrec

/-- A state with no fault recorded meets the invariant on its memory and pc alone. -/
theorem inv_of_no_record {t : State} (hm : t.mem.wf = true) (hp : t.runState ≠ .halted → t.pc.toNat ≤ 256)
    (hr : t.runState ≠ .faulted) (hrec : t.faultCode = .none ∧ t.faultInfo = 0) : Inv t := by
  obtain ⟨code, infoZero⟩ := hrec
  exact ⟨hm, hp, by simp [code, hr], by simp [recordTrue, code, infoZero]⟩

/-- Taking a fault keeps the invariant where its record is true (R126). -/
theorem inv_takeFault {s : State} {f : Fault} (hi : Inv s) (hr : s.runState = .running)
    (hrec : recordTrue (takeFault f s) = true) : Inv (takeFault f s) := by
  obtain ⟨hm, hp, -, -⟩ := hi
  have code : f.code ≠ .none := by cases f <;> simp [Fault.code]
  exact ⟨hm, fun _ => hp (by simp [hr]), by simp [code], hrec⟩

/-- Settles O2: nothing is recorded at reset. -/
theorem resetMeetsInvariant : Obligations.ResetMeetsInvariant :=
  inv_of_no_record reset_mem_wf (fun _ => Nat.zero_le _) (by decide) ⟨rfl, rfl⟩

/-! ### Every event keeps the invariant -/

/-- A fault taken by a step is recorded truly, whichever stage raised it. -/
theorem recordTrue_of_step_fault {s : State} {f : Fault} (hr : s.runState = .running) (hpc : s.pc.toNat ≤ 256)
    (h : step s = .next (takeFault f s)) : recordTrue (takeFault f s) = true := by
  rcases step_cases s with ⟨-, e⟩ | ⟨-, -, g, hg, e⟩ | ⟨-, -, i, hf, e⟩
  · have := congrArg State.runState (Host.Outcome.next.inj (e.symm.trans h))
    simp [hr] at this
  · rw [Host.Outcome.next.inj (h.symm.trans e)]
    exact recordTrue_of_fetchInstr_error hpc hg
  · obtain ⟨_, effect, ht⟩ := exec_next (e.symm.trans h)
    rw [ht]
    cases effect with
    | badIndex b operand large => exact recordTrue_outOfBoundsReg hf operand large
    | zeroDivisor opA opB b isDiv index zero => exact recordTrue_divisionByZero (isDiv ▸ hf) index zero
    | write | output | halt =>
      have := congrArg State.runState ht
      simp [Effect.apply, hr] at this

/-- A step keeps the invariant: a completed one records nothing and ends at a pc of at most 256, a fault is recorded
truly. -/
theorem step_inv {s t : State} (hi : Inv s) (h : step s = .next t) : Inv t := by
  obtain ⟨hm, hp, -, -⟩ := id hi
  rcases step_effects h with ⟨-, rfl⟩ | ⟨hr, -, ⟨f, rfl, -⟩ | ⟨a, v, rfl, hlt, -⟩ | ⟨a, rfl, hlt, -⟩ | ⟨rfl, -, -⟩⟩
  · exact hi
  · exact inv_takeFault hi hr (recordTrue_of_step_fault hr (hp (by simp [hr])) h)
  · have norec := no_record_of_running hi hr
    have hpc := advance_pc_toNat (s.setReg a v) (n := 2) (by rw [setReg_pc]; omega)
    exact inv_of_no_record hm (fun _ => by rw [hpc, setReg_pc]; omega) (by simp [hr]) norec
  · have norec := no_record_of_running hi hr
    have hpc := advance_pc_toNat (s.emit (s.reg a)) (n := 1) (by rw [emit_pc]; omega)
    exact inv_of_no_record hm (fun _ => by rw [hpc, emit_pc]; omega) (by simp [hr]) norec
  · have norec := no_record_of_running hi hr
    exact inv_of_no_record hm (fun hn => absurd (halt_runState s) hn) (by simp) norec

/-- Settles O45. -/
theorem stepKeepsInvariant : Obligations.StepKeepsInvariant := by
  unfold Obligations.StepKeepsInvariant
  exact fun _ _ => step_inv

/-- The load write is a move of the load phase alone (R45, R164; log entry 5). -/
theorem of_hostMove_load {addr : BitVec 9} {v : Byte} {s t : State} (h : hostMove (.load addr v) s = .next t) :
    inLoadPhase s = true ∧ t = memWrite addr.toNat v s := by
  by_cases phase : inLoadPhase s = true
  · rw [hostMove, if_pos phase] at h
    cases h
    exact ⟨phase, rfl⟩
  · rw [hostMove, if_neg phase] at h
    cases h

/-- A load write changes memory and `ld_err` alone (R32). -/
theorem memWrite_frame (a : Nat) (v : Byte) (s : State) :
    memWrite a v s = { s with mem := (memWrite a v s).mem, ldErr := (memWrite a v s).ldErr } := by
  obtain ⟨-, e⟩ | ⟨-, e⟩ := memWrite_cases a v s <;> rw [e]

/-- A host move keeps the invariant: reset makes it anew, a load write happens where nothing is recorded, and no part of it
reads `run_en`. -/
theorem hostMove_inv {m : HostMove} {s t : State} (hi : Inv s) (h : hostMove m s = .next t) : Inv t := by
  cases m with
  | reset => cases h; exact resetMeetsInvariant
  | load addr v =>
    obtain ⟨phase, rfl⟩ := of_hostMove_load h
    obtain ⟨hm, hp, -, -⟩ := id hi
    have hr : s.runState = .running := by
      simp only [inLoadPhase, Bool.and_eq_true, decide_eq_true_eq] at phase
      exact phase.1.2
    have norec := no_record_of_running hi hr
    have hm' := memWrite_wf addr.toNat v hm
    rw [memWrite_frame] at hm' ⊢
    exact inv_of_no_record hm' hp (by simp [hr]) norec
  | setRunEn level => cases h; exact hi

/-- An event keeps the invariant. -/
theorem event_inv {e : Event} {s t : State} (hi : Inv s) (h : event e s = .next t) : Inv t := by
  cases e with
  | coreStep => exact step_inv hi h
  | host m => exact hostMove_inv hi h

/-- What every event keeps, every sequence of events keeps. -/
theorem events_induction {P : State → Prop} (keep : ∀ {e s t}, P s → event e s = .next t → P t) {es : List Event}
    {s t : State} (hs : P s) (h : events es s = .next t) : P t := by
  induction es generalizing s with
  | nil => cases h; exact hs
  | cons e es ih =>
    unfold events at h
    split at h
    · exact ih (keep hs ‹_›) h
    · cases h
    · cases h

/-- Settles O47. -/
theorem reachableStatesMeetInvariant : Obligations.ReachableStatesMeetInvariant := by
  unfold Obligations.ReachableStatesMeetInvariant
  exact fun _ _ => events_induction event_inv resetMeetsInvariant

end Sys2Proof.Machine
end

section
/-! SUPPORT. Canonical memories are determined by what they read, and the tables of reset values and port encodings (R18,
R19, R21, R26). Settles O1, O11 and O51. -/

namespace Sys2Proof.Machine

/-- Settles O1: every field of the reset state is written out. -/
theorem resetValues : Obligations.ResetValues := by
  unfold Obligations.ResetValues
  exact ⟨by decide, rfl, rfl, rfl, rfl, fun _ _ => rfl, rfl⟩

/-- Settles O51. -/
theorem portEncodings : Obligations.PortEncodings := by
  unfold Obligations.PortEncodings
  decide

/-! ### Canonical memories -/

theorem wfFrom_cons_iff {lo b : Nat} {w : Byte} {m : Memory} :
    Memory.wfFrom lo ((b, w) :: m) = true ↔ lo ≤ b ∧ b < 256 ∧ w ≠ blankByte ∧ Memory.wfFrom (b + 1) m = true := by
  simp [Memory.wfFrom, and_assoc]

@[simp] theorem read_cons_same (b : Nat) (w : Byte) (m : Memory) : Memory.read ((b, w) :: m) b = w := by
  simp [Memory.read]

theorem read_cons_other {a b : Nat} (h : a ≠ b) (w : Byte) (m : Memory) :
    Memory.read ((b, w) :: m) a = Memory.read m a := by
  simp [Memory.read, h]

/-- A cell that is not blank lies at or above the first listed one. -/
theorem exists_cons_of_read_ne_blank {lo a : Nat} {n : Memory} (hn : Memory.wfFrom lo n = true)
    (h : Memory.read n a ≠ blankByte) : ∃ c u n', n = (c, u) :: n' ∧ c ≤ a := by
  cases n with
  | nil => exact absurd rfl h
  | cons d n =>
    obtain ⟨c, u⟩ := d
    obtain ⟨-, h2, h3, h4⟩ := wfFrom_cons_iff.1 hn
    refine ⟨c, u, n, rfl, Nat.le_of_not_lt fun below => h ?_⟩
    exact read_below (wfFrom_cons_iff.2 ⟨Nat.le_refl c, h2, h3, h4⟩) below

/-- Below its first cell a canonical rest of memory is blank, so equal reads of two memories with one first cell are equal
reads of the rests. -/
theorem read_tail_eq {b : Nat} {w : Byte} {m n : Memory} (hm : Memory.wfFrom (b + 1) m = true)
    (hn : Memory.wfFrom (b + 1) n = true)
    (h : ∀ a, Memory.read ((b, w) :: m) a = Memory.read ((b, w) :: n) a) (a : Nat) :
    Memory.read m a = Memory.read n a := by
  by_cases e : a = b
  · rw [read_below hm (by omega), read_below hn (by omega)]
  · rw [← read_cons_other e w m, h a, read_cons_other e w n]

/-- Two canonical memories that read alike list the same cells: each one's first cell is not blank in the other. -/
theorem eq_of_read_eq {lo lo' : Nat} {m n : Memory} (hm : Memory.wfFrom lo m = true) (hn : Memory.wfFrom lo' n = true)
    (h : ∀ a, Memory.read m a = Memory.read n a) : m = n := by
  induction m generalizing lo lo' n with
  | nil =>
    cases n with
    | nil => rfl
    | cons d n =>
      obtain ⟨c, u⟩ := d
      obtain ⟨-, -, hu, -⟩ := wfFrom_cons_iff.1 hn
      exact absurd ((read_cons_same c u n).symm.trans (h c).symm) hu
  | cons d m ih =>
    obtain ⟨b, w⟩ := d
    obtain ⟨-, -, hw, hm'⟩ := wfFrom_cons_iff.1 hm
    have hb : Memory.read n b = w := by rw [← h b, read_cons_same]
    obtain ⟨c, u, n, rfl, hcb⟩ := exists_cons_of_read_ne_blank hn (hb ▸ hw)
    obtain ⟨-, -, hu, hn'⟩ := wfFrom_cons_iff.1 hn
    have hc : Memory.read ((b, w) :: m) c = u := by rw [h c, read_cons_same]
    obtain ⟨_, _, _, e, hbc⟩ := exists_cons_of_read_ne_blank hm (hc ▸ hu)
    cases e
    obtain rfl : c = b := Nat.le_antisymm hcb hbc
    obtain rfl : u = w := by rw [← hb, read_cons_same]
    rw [ih hm' hn' (read_tail_eq hm' hn' h)]

/-- Settles O11. -/
theorem equalReadsMakeEqualMemories : Obligations.EqualReadsMakeEqualMemories := by
  unfold Obligations.EqualReadsMakeEqualMemories
  exact fun _ _ => eq_of_read_eq

end Sys2Proof.Machine
end

section
/-! SUPPORT. What one step does to the pc, the registers and the output stream, and that it reads no output (R13, R15,
R22). Settles O39, O40 and O41. -/

namespace Sys2Proof.Machine

open Sys2Proof.Safety Sys2Proof.Stated

/-! ### The pc and the registers -/

/-- Settles O39: a completed step adds 2 or 3 to a pc below 256, which does not wrap. -/
theorem pcNeverDecreases : Obligations.PcNeverDecreases := by
  unfold Obligations.PcNeverDecreases
  intro s t h notHalted
  rcases step_effects h with ⟨-, rfl⟩ | ⟨-, -, ⟨f, rfl, -⟩ | ⟨a, v, rfl, hlt, -⟩ | ⟨a, rfl, hlt, -⟩ | ⟨rfl, -, -⟩⟩
  · exact Nat.le_refl _
  · exact Nat.le_refl _
  · rw [advance_pc_toNat _ (by rw [setReg_pc]; omega), setReg_pc]
    omega
  · rw [advance_pc_toNat _ (by rw [emit_pc]; omega), emit_pc]
    omega
  · exact absurd (halt_runState s) notHalted

/-- Settles O40: only the effect of LDI and the ALU touches a register, and that one alone. -/
theorem stepWritesOnlyItsDestination : Obligations.StepWritesOnlyItsDestination := by
  unfold Obligations.StepWritesOnlyItsDestination
  intro s t r h changed
  rcases step_effects h with ⟨-, rfl⟩ | ⟨-, -, ⟨f, rfl, -⟩ | ⟨a, v, rfl, -, ha, hop⟩ | ⟨a, rfl, -⟩ | ⟨rfl, -, -⟩⟩
  · exact absurd rfl changed
  · exact absurd rfl changed
  · have same : r = a := by
      by_contra other
      exact changed (reg_setReg_other s other v)
    exact ⟨hop, by rw [ha, same]⟩
  · exact absurd rfl changed
  · exact absurd rfl changed

/-! ### The output port -/

/-- An unchanged output stream gives no pulse (R22, R27). -/
theorem outPulse_eq_none {s t : State} (h : t.out = s.out) : outPulse s t = none := by
  simp [outPulse, h]

/-- An appended value is the pulse (R22, R27). -/
theorem outPulse_append {s t : State} {v : Byte} (h : t.out = s.out ++ [v]) : outPulse s t = some v := by
  simp [outPulse, h]

/-- The register an operand byte names. -/
theorem regAt_eq_reg {b : Byte} {a : Fin 8} (s : State) (h : b.toNat = a.val) : regAt s b = s.reg a := by
  rw [regAt, h, reg_eq_getD]

/-- A step appends its register's value if it is a PRN that completes, and otherwise leaves the output (R22, R95). -/
theorem step_out {s t : State} (h : step s = .next t) :
    if s.runState = .running ∧ t.runState = .running ∧ s.runEn = true ∧ cell s 0 = 0x47 then
      (cell s 1).toNat < 8 ∧ t.out = s.out ++ [regAt s (cell s 1)] ∧ outPulse s t = some (regAt s (cell s 1))
    else t.out = s.out ∧ outPulse s t = none := by
  rcases step_effects h with ⟨idle, rfl⟩ | ⟨hr, he, ⟨f, rfl, -⟩ | ⟨a, v, rfl, -, -, hop⟩ | ⟨a, rfl, -, ha, hop⟩ | ⟨rfl, -, -⟩⟩
  · rw [if_neg fun ⟨hr, _, he, _⟩ => idle ⟨hr, he⟩]
    exact ⟨rfl, outPulse_eq_none rfl⟩
  · rw [if_neg (by simp)]
    exact ⟨rfl, outPulse_eq_none rfl⟩
  · rw [if_neg fun ⟨_, _, _, isPrn⟩ => absurd (isPrn ▸ hop) (by decide)]
    exact ⟨rfl, outPulse_eq_none rfl⟩
  · rw [if_pos ⟨hr, hr, he, hop⟩, regAt_eq_reg s ha]
    exact ⟨by omega, rfl, outPulse_append rfl⟩
  · rw [if_neg (by simp)]
    exact ⟨rfl, outPulse_eq_none rfl⟩

/-- A host move leaves the output, but reset, which empties it (R22, R26). -/
theorem hostMove_out {m : HostMove} {s t : State} (h : hostMove m s = .next t) :
    t.out = if m = .reset then [] else s.out := by
  cases m with
  | reset => cases h; rfl
  | load addr v =>
    obtain ⟨-, rfl⟩ := of_hostMove_load h
    rw [memWrite_frame, if_neg (by simp)]
  | setRunEn level => cases h; rfl

/-! ### No instruction reads the output -/

/-- The values an effect outputs. -/
def Effect.emitted : Effect → List Byte
  | .output v => [v]
  | _ => []

/-- An effect appends its output whatever stands before, and does the same to every other field. -/
theorem Effect.apply_with_out (e : Effect) (s : State) (o : List Byte) :
    e.apply { s with out := o } = { e.apply s with out := o ++ e.emitted } := by
  cases e <;> simp [apply, emitted, takeFault, State.setReg, State.emit, State.advance, State.halt]

theorem step_idle {s : State} (h : ¬ canStep s = true) : step s = .next s := if_neg h

theorem step_fetchFault {s : State} {f : Fault} (hc : canStep s = true) (hf : fetchInstr s = .error f) :
    step s = .next (takeFault f s) := by
  rw [step, if_pos hc, hf]; rfl

theorem step_exec {s : State} {i : Instr} (hc : canStep s = true) (hf : fetchInstr s = .ok i) : step s = exec i s := by
  rw [step, if_pos hc, hf]

/-- A step has one effect, the same on every state that may step as `s` may, fetches the same and has the same registers: it
depends on nothing else. -/
theorem step_effect (s : State) : ∃ e : Effect, ∀ s' : State, canStep s' = canStep s → fetchInstr s' = fetchInstr s →
    s'.x = s.x → step s' = .next (e.apply s') := by
  by_cases hc : canStep s = true
  · cases hf : fetchInstr s with
    | error f => exact ⟨.fault f, fun s' hc' hf' _ => step_fetchFault (hc'.trans hc) hf'⟩
    | ok i =>
      obtain ⟨e, -, run⟩ := hasEffect i s
      exact ⟨e, fun s' hc' hf' hx => (step_exec (hc'.trans hc) hf').trans (run s' hx)⟩
  · exact ⟨.idle, fun s' hc' _ _ => step_idle (by rwa [hc'])⟩

/-- Settles O41: a step's effect, one for every earlier output, appends what it emits. -/
theorem outputOnlyFromPrn : Obligations.OutputOnlyFromPrn := by
  unfold Obligations.OutputOnlyFromPrn
  refine ⟨rfl, fun _ _ => step_out, fun _ _ _ => hostMove_out, fun s t h => ?_⟩
  obtain ⟨e, effect⟩ := step_effect s
  have run : ∀ o, step { s with out := o } = .next (e.apply { s with out := o }) := fun _ => effect _ rfl rfl rfl
  have ht : t = e.apply s := Host.Outcome.next.inj (h.symm.trans (run s.out))
  have grows : e.apply s = { e.apply s with out := s.out ++ e.emitted } := e.apply_with_out s s.out
  refine ⟨e.emitted, ?_, fun o => ?_⟩
  · rw [ht, grows]
  · rw [run o, e.apply_with_out, ht]

end Sys2Proof.Machine
end

section
/-! SUPPORT. What the decoder's stages answer and depend on; they read an encoding back byte by byte, the opcode byte at
distance 0 and each operand byte at its own (R34, R50, R51, R54). Settles O12. -/

namespace Sys2Proof

/-- Stages that read an opcode byte and the operand bytes it asks for answer its instruction (R71 to R75). -/
theorem decodeWith_eq_ok {ε : Type} {read : Nat → Except ε Byte} {op : Opcode} {opA opB : Byte} (unknown : Byte → ε)
    (h0 : read 0 = .ok op.byte) (hA : operandByte (decide (1 ≤ nops op.byte)) (read 1) = .ok opA)
    (hB : operandByte (decide (2 ≤ nops op.byte)) (read 2) = .ok opB) :
    decodeWith read unknown = .ok (op.withOperands opA opB) := by
  simp only [decodeWith, h0, lookup_byte, hA, hB]

/-- The decoder's stages depend on the opcode byte and, where it is defined, the operand bytes it asks for, alone (R71 to
R75). -/
theorem decodeWith_congr {ε : Type} {read read' : Nat → Except ε Byte} (unknown : Byte → ε) (h0 : read' 0 = read 0)
    (hops : ∀ op : Opcode, read 0 = .ok op.byte → ∀ k, 1 ≤ k → k ≤ nops op.byte → read' k = read k) :
    decodeWith read' unknown = decodeWith read unknown := by
  have operand : ∀ (op : Opcode) (k : Nat), read 0 = .ok op.byte → 1 ≤ k →
      operandByte (decide (k ≤ nops op.byte)) (read' k) = operandByte (decide (k ≤ nops op.byte)) (read k) := by
    intro op k hop hk
    by_cases present : k ≤ nops op.byte
    · rw [hops op hop k hk present]
    · simp [operandByte, present]
  unfold decodeWith
  rw [h0]
  cases hr : read 0 with
  | error e => rfl
  | ok ir =>
    cases hl : lookup ir with
    | none => simp only [hl]
    | some op =>
      obtain rfl := lookup_eq_some_iff.1 hl
      simp only [hl, operand op 1 hr (Nat.le_refl 1), operand op 2 hr (by decide)]

/-- Behind one byte, operand fetch reads the operand bytes `args` at distances 1 and up, and nothing beyond them (R51,
R75). -/
theorem operandByte_byteAt (b : Byte) (args rest : List Byte) (k : Nat) :
    operandByte (decide (k + 1 ≤ args.length)) (byteAt (b :: (args ++ rest)) (k + 1)) = .ok (args.getD k 0) := by
  by_cases hk : k < args.length
  · simp [operandByte, byteAt, hk, List.getElem?_append_left hk]
  · simp [operandByte, hk]

/-- An opcode byte and as many bytes as it asks for decode to its instruction, and the bytes after them are left (R50). -/
theorem decode_byte_append (op : Opcode) {args : List Byte} (rest : List Byte) (hlen : args.length = nops op.byte) :
    decode (op.byte :: (args ++ rest)) = .ok (op.withOperands (args.getD 0 0) (args.getD 1 0), rest) := by
  have stages := decodeWith_eq_ok (read := byteAt (op.byte :: (args ++ rest))) .unknownOpcode rfl
    (hlen ▸ operandByte_byteAt op.byte args rest 0) (hlen ▸ operandByte_byteAt op.byte args rest 1)
  have after : (op.byte :: (args ++ rest)).drop op.width = rest := by
    rw [Opcode.width, ← hlen, Nat.add_comm, List.drop_succ_cons, List.drop_left]
  simp only [decode, stages, opcode_withOperands, after]

/-- The encoding has as many operand bytes as its opcode byte says (R50). -/
theorem length_tail_encode (i : Instr) : (encode i).tail.length = nops i.opcode.byte := by
  have width : Laws.EncodedWidth.Statement i := by
    cases i with
    | ldi opA opB => exact Laws.EncodedWidth.ldi opA opB
    | prn opA => exact Laws.EncodedWidth.prn opA
    | hlt => exact Laws.EncodedWidth.hlt
    | add opA opB => exact Laws.EncodedWidth.add opA opB
    | sub opA opB => exact Laws.EncodedWidth.sub opA opB
    | mul opA opB => exact Laws.EncodedWidth.mul opA opB
    | div opA opB => exact Laws.EncodedWidth.div opA opB
  rw [List.length_tail, width, Nat.add_sub_cancel_left]

/-- The encoded operand bytes, in order, are the instruction's own (R51). -/
theorem withOperands_tail_encode (i : Instr) :
    i.opcode.withOperands ((encode i).tail.getD 0 0) ((encode i).tail.getD 1 0) = i := by
  cases i <;> rfl

/-- Settles O12: an encoding is its opcode byte and as many operand bytes as that asks for, and these are the
instruction's own. -/
theorem decodeOfEncodeIsIdentity : Obligations.DecodeOfEncodeIsIdentity := by
  unfold Obligations.DecodeOfEncodeIsIdentity
  intro i rest
  have decoded := decode_byte_append i.opcode rest (length_tail_encode i)
  rwa [withOperands_tail_encode] at decoded

end Sys2Proof
end

section
/-! SUPPORT. Who reads and writes memory: the load port, one cell at a time and in the load phase alone; a step, which
writes nothing and reads its opcode byte and operand bytes alone (R32, R36, R37, R45). Settles O4, O5, O42, O46, O48 and
O50. -/

namespace Sys2Proof.Machine

open Sys2Proof.Safety Sys2Proof.Stated

/-! ### The load port (R27, R32, R45) -/

theorem hostMove_load {s : State} (phase : inLoadPhase s = true) (addr : BitVec 9) (v : Byte) :
    hostMove (.load addr v) s = .next (memWrite addr.toNat v s) := if_pos phase

theorem hostMove_load_refused {s : State} (phase : inLoadPhase s = false) (addr : BitVec 9) (v : Byte) :
    hostMove (.load addr v) s = .refused .loadOutsideLoadPhase := if_neg (by simp [phase])

theorem memWrite_lt {a : Nat} (h : a < 256) (v : Byte) (s : State) :
    memWrite a v s = { s with mem := Memory.write s.mem a v, ldErr := false } := if_neg (Nat.not_le.2 h)

theorem memWrite_ge {a : Nat} (h : 256 ≤ a) (v : Byte) (s : State) : memWrite a v s = { s with ldErr := true } :=
  if_pos h

/-- Settles O5. -/
theorem loadOutsideLoadPhaseRefused : Obligations.LoadOutsideLoadPhaseRefused := by
  unfold Obligations.LoadOutsideLoadPhaseRefused
  exact fun _ addr v phase => hostMove_load_refused phase addr v

/-- Settles O4: the accepted write is `Memory.write`, after which every cell but the written one reads as before. -/
theorem loadPortWritesOneCell : Obligations.LoadPortWritesOneCell := by
  unfold Obligations.LoadPortWritesOneCell
  intro s addr v phase hm
  rw [hostMove_load phase]
  refine ⟨fun inside => ⟨Memory.write s.mem addr.toNat v, ?_, fun a => read_write v a hm⟩, fun outside => ?_⟩
  · rw [memWrite_lt inside]
  · rw [memWrite_ge outside]

/-- Settles O46. -/
theorem hostMovesKeepInvariant : Obligations.HostMovesKeepInvariant := by
  unfold Obligations.HostMovesKeepInvariant
  exact fun _ _ _ => hostMove_inv

/-! ### The end of the load phase (R45, R152) -/

/-- The load phase is in RUNNING at pc 0 (log entry 5). -/
theorem inLoadPhase_eq_false {s : State} (h : s.runState = .running → s.pc ≠ 0) : inLoadPhase s = false := by
  simp only [inLoadPhase, Bool.and_eq_false_imp, Bool.and_eq_true, decide_eq_true_eq, decide_eq_false_iff_not]
  exact fun running => h running.2

/-- An advance from inside memory does not come back to pc 0 (R16, R77). -/
theorem advance_pc_ne_zero (s : State) {n : Nat} (h : s.pc.toNat + n < 256) : (s.advance n).pc ≠ 0 := by
  have moved : (s.advance n).pc.toNat ≠ 0 := by
    rw [advance_pc_toNat s (by omega)]
    omega
  exact fun zero => moved (by rw [zero]; rfl)

/-- Settles O50: a step that is taken leaves RUNNING or moves the pc up. -/
theorem firstStepEndsLoadPhase : Obligations.FirstStepEndsLoadPhase := by
  unfold Obligations.FirstStepEndsLoadPhase
  intro s t level stepping h
  apply inLoadPhase_eq_false
  rcases step_effects h with ⟨idle, -⟩ | ⟨-, -, ⟨f, rfl, -⟩ | ⟨a, v, rfl, hlt, -⟩ | ⟨a, rfl, hlt, -⟩ | ⟨rfl, -, -⟩⟩
  · exact absurd stepping idle
  · simp
  · exact fun _ => advance_pc_ne_zero (s.setReg a v) hlt
  · exact fun _ => advance_pc_ne_zero (s.emit (s.reg a)) hlt
  · simp

/-! ### No step writes memory (R36, R81) -/

/-- An effect leaves memory, and does the same to every other field whatever memory stands behind it. -/
theorem Effect.apply_with_mem (e : Effect) (s : State) (m : Memory) :
    e.apply { s with mem := m } = { e.apply s with mem := m } := by
  cases e <;> rfl

@[simp] theorem Effect.apply_mem (e : Effect) (s : State) : (e.apply s).mem = s.mem := by
  cases e <;> rfl

/-- A step leaves memory (R36, R81). -/
theorem step_mem {s t : State} (h : step s = .next t) : t.mem = s.mem := by
  obtain ⟨e, effect⟩ := step_effect s
  rw [← Host.Outcome.next.inj ((effect s rfl rfl rfl).symm.trans h), Effect.apply_mem]

/-- What every step keeps, any number of steps keeps. -/
theorem run_induction {M : Host.Core} {P : M.State → Prop} (keep : ∀ {s t}, P s → M.step s = .next t → P t) {k : Nat}
    {s t : M.State} (hs : P s) (h : M.run k s = .next t) : P t := by
  induction k generalizing s with
  | zero => cases h; exact hs
  | succ k ih =>
    unfold Host.Core.run at h
    split at h
    · exact ih (keep hs ‹_›) h
    · cases h
    · cases h

/-- Settles O48. -/
theorem memoryIsConstantOverARun : Obligations.MemoryIsConstantOverARun := by
  unfold Obligations.MemoryIsConstantOverARun
  intro k s t
  exact run_induction (M := core) (P := fun u : State => u.mem = s.mem) (fun hu h => (step_mem h).trans hu) rfl

/-! ### What a step reads of memory (R37) -/

/-- A checked read depends on memory only through the cell it names (R31). -/
theorem memRead_congr {m n : Memory} {a : Nat} (h : Memory.read m a = Memory.read n a) : memRead m a = memRead n a := by
  simp only [memRead, h]

theorem byte_mem_definedBytes (op : Opcode) : op.byte ∈ definedBytes := by cases op <;> decide

/-- The fetch depends on memory only through the opcode byte and, where it is defined, its operand bytes (R37). -/
theorem fetchInstr_with_mem {s : State} {m : Memory} (h0 : Memory.read m s.pc.toNat = cell s 0)
    (hops : cell s 0 ∈ definedBytes → ∀ k, 1 ≤ k → k ≤ nops (cell s 0) →
      Memory.read m (s.pc.toNat + k) = cell s k) :
    fetchInstr { s with mem := m } = fetchInstr s := by
  refine decodeWith_congr Fault.unknownOpcode (memRead_congr h0) fun op hop k hk hn => memRead_congr ?_
  have opcode : cell s 0 = op.byte := (memRead_ok_iff.1 hop).2.symm
  rw [← opcode] at hn
  exact hops (opcode ▸ byte_mem_definedBytes op) k hk hn

/-- Settles O42: with the same instruction fetched, a step has the same effect, which reads no memory. -/
theorem stepReadsOnlyItsInstruction : Obligations.StepReadsOnlyItsInstruction := by
  unfold Obligations.StepReadsOnlyItsInstruction
  intro s t m h0 hops h
  obtain ⟨e, effect⟩ := step_effect s
  have ht : e.apply s = t := Host.Outcome.next.inj ((effect s rfl rfl rfl).symm.trans h)
  rw [effect { s with mem := m } rfl (fetchInstr_with_mem h0 hops) rfl, e.apply_with_mem, ht]

end Sys2Proof.Machine
end

section
/-! SUPPORT. Whatever decodes is an opcode byte with the operand bytes it asks for, which is what the encoder writes (R50,
R51, R53); and the 256 opcode bytes counted by operand count (R55). Settles O13, O14 and O15. -/

namespace Sys2Proof

/-! ### What decodes -/

/-- A byte of the string is read exactly where there is one. -/
theorem byteAt_eq_ok_iff {bytes : List Byte} {k : Nat} {b : Byte} : byteAt bytes k = .ok b ↔ bytes[k]? = some b := by
  unfold byteAt
  cases bytes[k]? <;> simp

/-- Operand fetch succeeds at a distance the opcode asks for only where the string holds a byte there (R75). -/
theorem lt_length_of_operandByte_byteAt {bytes : List Byte} {n k : Nat} {b : Byte} (hk : k ≤ n)
    (h : operandByte (decide (k ≤ n)) (byteAt bytes k) = .ok b) : k < bytes.length := by
  rw [operandByte, if_pos (decide_eq_true hk), byteAt_eq_ok_iff] at h
  exact (List.getElem?_eq_some_iff.1 h).1

/-- A string that decodes starts with an opcode byte and holds the operand bytes it asks for (R50, R75). -/
theorem exists_opcode_of_decode_eq_ok {bytes rest : List Byte} {i : Instr} (h : decode bytes = .ok (i, rest)) :
    ∃ op : Opcode, bytes[0]? = some op.byte ∧ nops op.byte < bytes.length := by
  rcases decodeWith_cases (byteAt bytes) .unknownOpcode with
    ⟨_, -, e⟩ | ⟨_, -, -, e⟩ | ⟨_, -, -, _, -, e⟩ | ⟨_, -, -, _, -, _, -, e⟩ | ⟨op, a, b, h0, hA, hB, -⟩
  case inr.inr.inr.inr =>
    have first := byteAt_eq_ok_iff.1 h0
    refine ⟨op, first, ?_⟩
    have len0 := (List.getElem?_eq_some_iff.1 first).1
    have len1 := fun present => lt_length_of_operandByte_byteAt present hA
    have len2 := fun present => lt_length_of_operandByte_byteAt present hB
    have := nops_byte_le op
    omega
  all_goals simp [decode, e] at h

/-- A string decodes only as an opcode byte with the operand bytes it asks for, and the rest (R50). -/
theorem eq_byte_append_of_decode_eq_ok {bytes rest : List Byte} {i : Instr} (h : decode bytes = .ok (i, rest)) :
    ∃ (op : Opcode) (args : List Byte), args.length = nops op.byte ∧ bytes = op.byte :: (args ++ rest) ∧
      i = op.withOperands (args.getD 0 0) (args.getD 1 0) := by
  obtain ⟨op, first, len⟩ := exists_opcode_of_decode_eq_ok h
  obtain ⟨tail, rfl⟩ : ∃ tail, bytes = op.byte :: tail := List.head?_eq_some_iff.1 (by rwa [List.head?_eq_getElem?])
  have hlen : (tail.take (nops op.byte)).length = nops op.byte := by
    simp only [List.length_cons, List.length_take] at len ⊢
    omega
  have decoded := decode_byte_append op (tail.drop (nops op.byte)) hlen
  rw [List.take_append_drop, h] at decoded
  injection decoded with decoded
  injection decoded with hi hrest
  exact ⟨op, _, hlen, by rw [hrest, List.take_append_drop], hi⟩

/-- An instruction with the operand bytes its opcode byte asks for is encoded as just these bytes (R51). -/
theorem encode_withOperands (op : Opcode) {args : List Byte} (hlen : args.length = nops op.byte) :
    encode (op.withOperands (args.getD 0 0) (args.getD 1 0)) = op.byte :: args := by
  cases op
  case hlt => obtain rfl := List.length_eq_zero_iff.1 hlen; rfl
  case prn => obtain ⟨a, rfl⟩ := List.length_eq_one_iff.1 hlen; rfl
  all_goals obtain ⟨a, b, rfl⟩ := List.length_eq_two.1 hlen; rfl

/-- Settles O13: what decodes is an opcode byte, the operand bytes it asks for and the rest, and the encoding is these
bytes up to the rest. -/
theorem decodedBytesAreTheEncoding : Obligations.DecodedBytesAreTheEncoding := by
  unfold Obligations.DecodedBytesAreTheEncoding
  intro bytes rest i h
  obtain ⟨op, args, hlen, rfl, rfl⟩ := eq_byte_append_of_decode_eq_ok h
  rw [encode_withOperands op hlen, List.cons_append]

/-- Settles O14: each word is the encoding of its instruction, followed by nothing. -/
theorem specWordsDecode : Obligations.SpecWordsDecode := by
  unfold Obligations.SpecWordsDecode
  exact ⟨decodeOfEncodeIsIdentity (.ldi 0 8) [], decodeOfEncodeIsIdentity (.prn 0) [],
    decodeOfEncodeIsIdentity .hlt [], decodeOfEncodeIsIdentity (.add 6 1) [],
    decodeOfEncodeIsIdentity (.sub 5 3) [], decodeOfEncodeIsIdentity (.mul 7 2) [],
    decodeOfEncodeIsIdentity (.div 2 4) []⟩

/-! ### The opcode bytes by operand count -/

/-- The bytes whose bits 7:6 are `n`, ascending. -/
def bytesAsking (n : Nat) : List Byte := (List.range 64).map fun k => BitVec.ofNat 8 (64 * n + k)

/-- The 256 bytes in ascending order are the four blocks of bits 7:6. -/
theorem range_map_ofNat_eq_bytesAsking : (List.range 256).map (BitVec.ofNat 8) =
    bytesAsking 0 ++ bytesAsking 1 ++ bytesAsking 2 ++ bytesAsking 3 := by
  rw [show 256 = 64 + 64 + 64 + 64 by rfl, List.range_add, List.range_add, List.range_add]
  simp [bytesAsking, Function.comp_def]

/-- The operand count is the high part of the opcode byte (R50). -/
theorem nops_eq_toNat_div (ir : Byte) : nops ir = ir.toNat / 64 := by
  have low : (ir.toNat / 2 ^ 6) &&& 3 = ir.toNat / 2 ^ 6 % 4 := Nat.and_two_pow_sub_one_eq_mod _ 2
  rw [nops, BitVec.toNat_and, BitVec.toNat_ushiftRight, Nat.shiftRight_eq_div_pow]
  exact low.trans (by omega)

theorem nops_of_mem_bytesAsking {n : Nat} (hn : n < 4) {ir : Byte} (h : ir ∈ bytesAsking n) : nops ir = n := by
  obtain ⟨k, hk, rfl⟩ := List.mem_map.1 h
  rw [List.mem_range] at hk
  rw [nops_eq_toNat_div, BitVec.toNat_ofNat]
  omega

/-- Keeping the bytes with one operand count keeps that block and no other. -/
theorem filter_nops_bytesAsking {m : Nat} (hm : m < 4) (n : Nat) :
    (bytesAsking m).filter (fun ir => nops ir = n) = if m = n then bytesAsking m else [] := by
  have nops_eq : ∀ ir ∈ bytesAsking m, nops ir = m := fun _ => nops_of_mem_bytesAsking hm
  split
  case isTrue h => exact List.filter_eq_self.2 fun ir hir => decide_eq_true ((nops_eq ir hir).trans h)
  case isFalse h => exact List.filter_eq_nil_iff.2 fun ir hir => by rwa [decide_eq_true_iff, nops_eq ir hir]

/-- Of the 64 bytes of each block all are unknown but 1, 1, 5 and 0 opcode bytes (R54, R55). -/
theorem length_filter_unknown_bytesAsking :
    ((bytesAsking 0).filter fun ir => lookup ir = none).length = 63 ∧
    ((bytesAsking 1).filter fun ir => lookup ir = none).length = 63 ∧
    ((bytesAsking 2).filter fun ir => lookup ir = none).length = 59 ∧
    ((bytesAsking 3).filter fun ir => lookup ir = none).length = 64 :=
  ⟨by decide, by decide, by decide, by decide⟩

/-- Settles O15: the bytes are counted block by block, a block for each operand count. -/
theorem unknownOpcodeCounts : Obligations.UnknownOpcodeCounts := by
  unfold Obligations.UnknownOpcodeCounts
  obtain ⟨h0, h1, h2, h3⟩ := length_filter_unknown_bytesAsking
  simp [range_map_ofNat_eq_bytesAsking, List.filter_comm (fun ir => decide (nops ir = _)), filter_nops_bytesAsking,
    h0, h1, h2, h3]

end Sys2Proof
end

section
/-! SUPPORT. When a step is taken and which instruction it runs; that it always answers; what a completed and what a
faulting step do to the state; and how long a run can last (R70 to R79, R126). Settles O26, O27, O36, O38, O44 and O49. -/

namespace Sys2Proof

/-- A string decodes through the stages of the step alone; the width is only what is dropped after them (R71, R75). -/
theorem decodeWith_of_decode_eq_ok {bytes rest : List Byte} {i : Instr} (h : decode bytes = .ok (i, rest)) :
    decodeWith (byteAt bytes) .unknownOpcode = .ok i := by
  unfold decode at h
  split at h <;> cases h
  assumption

/-- A read that succeeds elsewhere too gives the same operand byte there. -/
theorem operandByte_mono {ε δ : Type} {r : Except ε Byte} {r' : Except δ Byte} {present : Bool} {a : Byte}
    (reads : ∀ b, r = .ok b → r' = .ok b) (h : operandByte present r = .ok a) : operandByte present r' = .ok a := by
  cases present with
  | false => cases h; rfl
  | true => exact reads a h

/-- What the decoder's stages accept, they accept from any source that reads at least the same bytes (R71 to R75). -/
theorem decodeWith_mono {ε δ : Type} {read : Nat → Except ε Byte} {read' : Nat → Except δ Byte} {unknown : Byte → ε}
    {i : Instr} (unknown' : Byte → δ) (reads : ∀ k b, read k = .ok b → read' k = .ok b)
    (h : decodeWith read unknown = .ok i) : decodeWith read' unknown' = .ok i := by
  rcases decodeWith_cases read unknown with
    ⟨_, -, e⟩ | ⟨_, -, -, e⟩ | ⟨_, -, -, _, -, e⟩ | ⟨_, -, -, _, -, _, -, e⟩ | ⟨op, opA, opB, h0, hA, hB, e⟩ <;>
    rw [e] at h <;> cases h
  exact decodeWith_eq_ok unknown' (reads 0 _ h0) (operandByte_mono (reads 1) hA) (operandByte_mono (reads 2) hB)

end Sys2Proof

namespace Sys2Proof.Machine

open Sys2Proof.Safety Sys2Proof.Stated

/-! ### When a step is taken, and that it answers (R70, R71) -/

/-- Settles O26. -/
theorem noStepUnlessEnabled : Obligations.NoStepUnlessEnabled := by
  unfold Obligations.NoStepUnlessEnabled
  exact fun s stays => step_idle fun can => stays ((canStep_iff s).1 can)

/-- Every step has an effect, a taken fault included, and answers the state after it. -/
theorem exists_step (s : State) : ∃ t, step s = .next t := by
  obtain ⟨e, effect⟩ := step_effect s
  exact ⟨e.apply s, effect s rfl rfl rfl⟩

/-- Settles O44. -/
theorem everyStepAnswersNext : Obligations.EveryStepAnswersNext := by
  unfold Obligations.EveryStepAnswersNext
  exact exists_step

/-! ### Which instruction a step runs (R71 to R76) -/

/-- A byte of the string a decoder at `pc` sees is a cell inside memory, which the checked read reads (R31, R34). -/
theorem memRead_of_byteAt_bytesFrom {s : State} {k : Nat} {b : Byte} (h : byteAt (bytesFrom s) k = .ok b) :
    memRead s.mem (s.pc.toNat + k) = .ok b := by
  obtain ⟨inside, hb⟩ := List.getElem?_eq_some_iff.1 (byteAt_eq_ok_iff.1 h)
  simp only [bytesFrom, List.length_map, List.length_range] at inside
  rw [memRead_lt (by omega), ← hb]
  simp [bytesFrom, cell]

/-- The fetch answers the instruction the bytes at `pc` decode to (R71 to R75). -/
theorem fetchInstr_of_decode {s : State} {i : Instr} {rest : List Byte} (h : decode (bytesFrom s) = .ok (i, rest)) :
    fetchInstr s = .ok i :=
  decodeWith_mono Fault.unknownOpcode (fun _ _ => memRead_of_byteAt_bytesFrom) (decodeWith_of_decode_eq_ok h)

/-- Settles O27. -/
theorem stepRunsTheDecodedInstruction : Obligations.StepRunsTheDecodedInstruction := by
  unfold Obligations.StepRunsTheDecodedInstruction
  exact fun s _ _ stepping h => step_exec ((canStep_iff s).2 stepping) (fetchInstr_of_decode h)

/-! ### The two ways a step ends but HLT (R77, R78, R126) -/

/-- A step that ends FAULTED has taken a fault and done nothing else (R126). -/
theorem of_step_faulted {s t : State} (stepping : Stepping s) (h : step s = .next t) (ends : t.runState = .faulted) :
    ∃ f, t = takeFault f s ∧ f.code ≠ .none := by
  rcases step_effects h with ⟨idle, -⟩ | ⟨hr, -, fault | ⟨a, v, rfl, -⟩ | ⟨a, rfl, -⟩ | ⟨rfl, -⟩⟩
  · exact absurd stepping idle
  · exact fault
  · simp [hr] at ends
  · simp [hr] at ends
  · simp at ends

/-- A step with `run_en` 1 that ends RUNNING was taken in RUNNING, at an instruction with operand bytes that lies inside
memory, and moves the pc by its width without wrap (R70, R77). -/
theorem of_step_running {s t : State} (enabled : s.runEn = true) (h : step s = .next t) (ends : t.runState = .running) :
    s.runState = .running ∧ 1 ≤ nops (cell s 0) ∧ s.pc.toNat + nops (cell s 0) < 256 ∧
      t.pc.toNat = s.pc.toNat + (1 + nops (cell s 0)) := by
  rcases step_effects h with
    ⟨idle, rfl⟩ | ⟨hr, -, ⟨f, rfl, -⟩ | ⟨a, v, rfl, inside, -, opcode⟩ | ⟨a, rfl, inside, -, opcode⟩ | ⟨rfl, -⟩⟩
  · exact absurd ⟨ends, enabled⟩ idle
  · simp at ends
  · have two : ∀ ir ∈ [0x82#8, 0xA0#8, 0xA1#8, 0xA2#8, 0xA3#8], nops ir = 2 := by decide
    rw [two _ opcode]
    exact ⟨hr, by omega, inside, advance_pc_toNat (s.setReg a v) (by rw [setReg_pc]; omega)⟩
  · have one : nops (cell s 0) = 1 := by rw [opcode]; rfl
    rw [one]
    exact ⟨hr, by omega, inside, advance_pc_toNat (s.emit (s.reg a)) (by rw [emit_pc]; omega)⟩
  · simp at ends

/-- Settles O36: the fault's entry writes the record and `run_state`, and no step is taken in FAULTED. -/
theorem faultsArePrecise : Obligations.FaultsArePrecise := by
  unfold Obligations.FaultsArePrecise
  intro s t stepping h ends
  obtain ⟨f, rfl, recorded⟩ := of_step_faulted stepping h ends
  exact ⟨recorded, rfl, noStepUnlessEnabled _ fun ⟨running, _⟩ => by simp at running⟩

/-- Settles O38. -/
theorem pcAdvancesByWidth : Obligations.PcAdvancesByWidth := by
  unfold Obligations.PcAdvancesByWidth
  intro s t stepping h
  refine ⟨fun ends => ?_, fun ends => ?_⟩
  · obtain ⟨-, -, inside, moved⟩ := of_step_running stepping.2 h ends
    exact ⟨moved, by omega⟩
  · obtain ⟨f, rfl, -⟩ := of_step_faulted stepping h ends
    exact takeFault_pc s f

/-! ### How long a run can last (R79) -/

/-- A run goes on from the state its first step answers. -/
theorem run_succ_of_step {M : Host.Core} {s u : M.State} (k : Nat) (first : M.step s = .next u) :
    M.run (k + 1) s = M.run k u := by
  rw [Host.Core.run, first]

/-- Any number of steps answers a next state. -/
theorem exists_run (k : Nat) (s : State) : ∃ t, core.run k s = .next t := by
  induction k generalizing s with
  | zero => exact ⟨s, rfl⟩
  | succ k ih =>
    obtain ⟨u, first⟩ := exists_step s
    obtain ⟨t, ht⟩ := ih u
    exact ⟨t, (run_succ_of_step (M := core) k first).trans ht⟩

/-- A run of at least one step has a first step, and goes on from the state it answers. -/
theorem run_succ_first {M : Host.Core} {k : Nat} {s t : M.State} (h : M.run (k + 1) s = .next t) :
    ∃ u, M.step s = .next u ∧ M.run k u = .next t := by
  cases first : M.step s with
  | next u => exact ⟨u, rfl, (run_succ_of_step k first).symm.trans h⟩
  | fault | refused => simp [Host.Core.run, first] at h

/-- A run of at least one step is the run before its last step, and that step. -/
theorem run_succ_last {M : Host.Core} {k : Nat} {s t : M.State} (h : M.run (k + 1) s = .next t) :
    ∃ u, M.run k s = .next u ∧ M.step u = .next t := by
  induction k generalizing s with
  | zero =>
    obtain ⟨u, first, rest⟩ := run_succ_first h
    cases rest
    exact ⟨s, rfl, first⟩
  | succ k ih =>
    obtain ⟨s', first, rest⟩ := run_succ_first h
    obtain ⟨u, hu, last⟩ := ih rest
    exact ⟨u, (run_succ_of_step k first).trans hu, last⟩

/-- No step writes the level of `run_en` (R70). -/
theorem step_runEn {s t : State} (h : step s = .next t) : t.runEn = s.runEn := by
  obtain ⟨e, effect⟩ := step_effect s
  rw [← Host.Outcome.next.inj ((effect s rfl rfl rfl).symm.trans h)]
  cases e <;> rfl

theorem run_runEn {k : Nat} {s t : State} (h : core.run k s = .next t) : t.runEn = s.runEn :=
  run_induction (M := core) (P := fun u : State => u.runEn = s.runEn) (fun hu h => (step_runEn h).trans hu) rfl h

/-- Steps that end in RUNNING move the pc by at least 2 each, the last one to at most 256: there are at most 128 (R79). -/
theorem run_running_bound {k : Nat} {s t : State} (enabled : s.runEn = true) (h : core.run k s = .next t)
    (ends : t.runState = .running) : 2 * k ≤ t.pc.toNat ∧ k ≤ 128 := by
  induction k generalizing t with
  | zero => omega
  | succ k ih =>
    obtain ⟨u, hu, last⟩ := run_succ_last h
    obtain ⟨running, hasOperands, inside, moved⟩ := of_step_running ((run_runEn hu).trans enabled) last ends
    obtain ⟨far, -⟩ := ih hu running
    omega

/-- Settles O49: 129 steps answer a state, which is not RUNNING. -/
theorem everyRunEnds : Obligations.EveryRunEnds := by
  unfold Obligations.EveryRunEnds
  refine fun s enabled => ⟨?_, fun k t h ends => (run_running_bound enabled h ends).2⟩
  obtain ⟨t, ht⟩ := exists_run 129 s
  refine ⟨129, t, Nat.le_refl _, ht, ?_⟩
  cases ends : t.runState with
  | running => exact absurd (run_running_bound enabled ht ends).2 (by decide)
  | halted => exact .inl rfl
  | faulted => exact .inr rfl

end Sys2Proof.Machine
end

section
/-! SUPPORT. The fetch and the step at a defined opcode byte, by whether all its operand bytes lie inside memory, and LDI
check by check (R71 to R75, R90, R122). Settles O16 and O30. -/

namespace Sys2Proof.Machine

open Sys2Proof.Safety Sys2Proof.Stated

/-! ### A step at a defined opcode byte (R71 to R75, R122) -/

/-- An opcode byte belongs to one opcode (R54). -/
theorem byte_injective : Function.Injective Opcode.byte := fun op op' h =>
  Option.some.inj (by rw [← lookup_byte op, h, lookup_byte])

section OpcodeAtPc

variable {s : State} {op : Opcode} (inside : s.pc.toNat < 256) (opcode : cell s 0 = op.byte)
include inside opcode

/-- At an opcode byte inside memory the fetch answers its instruction, or faults on address 256 where an operand byte lies
outside. -/
theorem fetchInstr_opcode : fetchInstr s =
    if s.pc.toNat + nops op.byte < 256 then .ok (op.withOperands (cell s 1) (cell s 2))
    else .error (.outOfBoundsMem 256) := by
  have same {op' : Opcode} (h : Memory.read s.mem s.pc.toNat = op'.byte) : op' = op :=
    byte_injective (h.symm.trans opcode)
  obtain ⟨outside, -⟩ | ⟨-, unknown, -⟩ | ⟨op', top, h, hn, e⟩ | ⟨op', top, h, hn, e⟩ | ⟨op', fits, h, e⟩ :=
    fetchInstr_cases s
  · omega
  · have known : lookup (Memory.read s.mem s.pc.toNat) = some op := lookup_eq_some_iff.2 opcode
    simp [known] at unknown
  · rw [e, if_neg (by rw [← same h]; omega)]
  · rw [e, if_neg (by rw [← same h]; omega)]
  · obtain rfl := same h
    rw [e, if_pos fits]; rfl

/-- An opcode byte with an operand byte outside memory faults on address 256 (R122, R126). -/
theorem step_operand_outside (running : Stepping s) (outside : 256 ≤ s.pc.toNat + nops op.byte) :
    step s = .next (faulted s .outOfBoundsMem 256) :=
  step_fetchFault (f := .outOfBoundsMem 256) ((canStep_iff s).2 running)
    (by rw [fetchInstr_opcode inside opcode, if_neg (Nat.not_lt.2 outside)])

/-- An opcode byte with its operand bytes inside memory runs its instruction (R76). -/
theorem step_operands_inside (running : Stepping s) (fits : s.pc.toNat + nops op.byte < 256) :
    step s = exec (op.withOperands (cell s 1) (cell s 2)) s :=
  step_exec ((canStep_iff s).2 running) (by rw [fetchInstr_opcode inside opcode, if_pos fits])

end OpcodeAtPc

/-! ### LDI (R90) -/

/-- Settles O16: the byte of a register number passes the check. -/
theorem ldiCompletes : Obligations.LdiCompletes := by
  unfold Obligations.LdiCompletes
  exact fun a v s => exec_ldi_lt (regCheck_ok_iff.1 (regCheck_ofFin a)) v s

/-- LDI check by check, the register write total on the vector (R14, R90). -/
theorem exec_ldi (opA opB : Byte) (s : State) : exec (.ldi opA opB) s = .next (
    if 8 ≤ opA.toNat then faulted s .outOfBoundsReg (info opA)
    else { s with x := s.x.setIfInBounds opA.toNat opB, pc := s.pc + 3 }) := by
  obtain large | ⟨a, names⟩ := ge_or_names opA
  · rw [if_pos large, faulted_outOfBoundsReg, exec_ldi_ge large]
  · rw [if_neg (by omega), exec_ldi_lt names, names, ← setReg_x_eq_setIfInBounds]; rfl

/-- Settles O30: LDI has two operand bytes, which lie inside memory up to pc 253. -/
theorem ldiStep : Obligations.LdiStep := by
  unfold Obligations.LdiStep
  intro s running inside opcode
  have opcode : cell s 0 = Opcode.ldi.byte := opcode
  split
  case isTrue high => exact step_operand_outside inside opcode running (by rw [nops_ldi]; omega)
  case isFalse low =>
    rw [step_operands_inside inside opcode running (by rw [nops_ldi]; omega)]
    exact exec_ldi (cell s 1) (cell s 2) s

end Sys2Proof.Machine
end

section
/-! SUPPORT. PRN check by check; where a step halts, and that HLT alone draws the free value, which reaches nothing but the
pc of the halted state (R95, R96, R97). Settles O17, O18, O31, O32 and O43. -/

namespace Sys2Proof.Machine

open Sys2Proof.Safety Sys2Proof.Stated

/-! ### PRN (R95) -/

/-- Settles O17: the byte of a register number passes the check. -/
theorem prnCompletes : Obligations.PrnCompletes := by
  unfold Obligations.PrnCompletes
  exact fun a s => exec_prn_lt (regCheck_ok_iff.1 (regCheck_ofFin a)) s

/-- A PRN byte with its operand inside memory runs PRN on that operand. -/
theorem step_prn {s : State} (running : Stepping s) (fits : s.pc.toNat < 255) (opcode : cell s 0 = Opcode.prn.byte) :
    step s = exec (.prn (cell s 1)) s :=
  step_operands_inside (by omega) opcode running (by rw [nops_prn]; omega)

/-- Settles O31: PRN has one operand byte, which lies inside memory up to pc 254, and checks it before the output. -/
theorem prnStep : Obligations.PrnStep := by
  unfold Obligations.PrnStep
  intro s running inside opcode
  split
  case isTrue top => exact step_operand_outside (op := .prn) inside opcode running (by rw [nops_prn]; omega)
  case isFalse below =>
    rw [step_prn running (by omega) opcode]
    obtain large | ⟨a, names⟩ := ge_or_names (cell s 1)
    · rw [if_pos large, faulted_outOfBoundsReg, exec_prn_ge large]
    · rw [if_neg (by omega), exec_prn_lt names, regAt_eq_reg s names]
      exact ⟨_, rfl, rfl, outPulse_append rfl⟩

/-! ### HLT (R96) -/

theorem exec_hlt (s : State) : exec .hlt s = .next s.halt := rfl

/-- Settles O18: the pc is the free value drawn at the counter (log entry 1). -/
theorem hltCompletes : Obligations.HltCompletes := by
  unfold Obligations.HltCompletes
  exact fun s => ⟨Config.haltPc s.freeIdx, exec_hlt s⟩

/-- A HLT byte halts at every address inside memory: it has no operand byte that could lie outside. -/
theorem step_hlt {s : State} (running : Stepping s) (inside : s.pc.toNat < 256) (opcode : cell s 0 = Opcode.hlt.byte) :
    step s = .next s.halt :=
  step_operands_inside inside opcode running (by rwa [nops_hlt])

/-- A step from RUNNING halts only by the effect of HLT, at its opcode byte inside memory. -/
theorem of_step_halted {s t : State} (hr : s.runState = .running) (h : step s = .next t) (ends : t.runState = .halted) :
    s.runEn = true ∧ s.pc.toNat < 256 ∧ cell s 0 = 0x01 := by
  rcases step_effects h with ⟨-, rfl⟩ | ⟨-, he, ⟨f, rfl, -⟩ | ⟨a, v, rfl, -⟩ | ⟨a, rfl, -⟩ | ⟨-, inside, opcode⟩⟩
  · simp [hr] at ends
  · simp at ends
  · simp [hr] at ends
  · simp [hr] at ends
  · exact ⟨he, inside, opcode⟩

/-- Settles O32: no step may be taken in HALTED, whatever `run_en` is. -/
theorem hltStep : Obligations.HltStep := by
  unfold Obligations.HltStep
  exact ⟨fun s running inside opcode => ⟨_, _, step_hlt running inside opcode, rfl, fun level => by simp [canStep]⟩,
    fun _ _ => of_step_halted⟩

/-! ### The free value (R97, log entry 1) -/

/-- With any other counter an effect does the same to every other field, but to the pc where it ends HALTED. -/
theorem Effect.apply_with_freeIdx (e : Effect) (s : State) (n : Nat) :
    ∃ p k, e.apply { s with freeIdx := n } = { e.apply s with pc := p, freeIdx := k } ∧
      ((e.apply s).runState ≠ .halted → p = (e.apply s).pc) := by
  cases e with
  | halt => exact ⟨Config.haltPc n, n + 1, rfl, fun notHalted => absurd (halt_runState s) notHalted⟩
  | idle | fault | write | output => exact ⟨_, n, rfl, fun _ => rfl⟩

/-- Settles O43: a step has the same effect whatever the counter, which neither the fetch nor a register depends on. -/
theorem freeValueOnlyInHaltedPc : Obligations.FreeValueOnlyInHaltedPc := by
  unfold Obligations.FreeValueOnlyInHaltedPc
  intro s t n h
  obtain ⟨e, effect⟩ := step_effect s
  have ht : e.apply s = t := Host.Outcome.next.inj ((effect s rfl rfl rfl).symm.trans h)
  rw [effect { s with freeIdx := n } rfl rfl rfl, ← ht]
  obtain ⟨p, k, applied, pcKept⟩ := e.apply_with_freeIdx s n
  exact ⟨p, k, congrArg _ applied, pcKept⟩

end Sys2Proof.Machine
end

section
/-! SUPPORT. The ALU's exact results by operation and what is written of them, and an ALU instruction check by check
(R105 to R110). Settles O19, O20, O24 and O33. -/

namespace Sys2Proof.Machine

open Sys2Proof.Safety Sys2Proof.Stated

/-! ### The exact result and its reduction (R106 to R110) -/

/-- Floor division of unsigned operands is division of natural numbers (R109). -/
theorem aluExact_div {a b : Byte} (nonzero : b ≠ 0) : aluExact .div a b = some ((a.toNat / b.toNat : Nat) : Int) := by
  have positive : b.toNat ≠ 0 := fun h => nonzero (BitVec.eq_of_toNat_eq h)
  rw [aluExact, if_neg positive, Int.fdiv_eq_ediv_of_nonneg _ (Int.natCast_nonneg _), Int.natCast_ediv]

/-- DIV has an exact result for a non-zero divisor alone: the quotient, which a byte holds. -/
theorem of_aluExact_div {a b : Byte} {r : Int} (h : aluExact .div a b = some r) :
    r = ((a.toNat / b.toNat : Nat) : Int) ∧ 0 ≤ r ∧ r ≤ 255 := by
  have nonzero : b ≠ 0 := fun zero => by simp [aluExact_eq_none_iff.2 ⟨rfl, zero⟩] at h
  obtain rfl := Option.some.inj (h.symm.trans (aluExact_div nonzero))
  have small : a.toNat / b.toNat ≤ 255 := (Nat.div_le_self _ _).trans (Nat.le_of_lt_succ a.isLt)
  exact ⟨rfl, Int.natCast_nonneg _, Int.ofNat_le.2 small⟩

/-- `narrow` is reduction modulo 256, of a negative result too (R6, R110). -/
theorem toNat_narrow (r : Int) : ((narrow r).toNat : Int) = r % 256 := by
  rw [narrow, BitVec.toNat_ofInt]; omega

/-- What is written is the exact result exactly when a byte holds it (R110). -/
theorem toNat_narrow_eq_iff {r : Int} : ((narrow r).toNat : Int) = r ↔ 0 ≤ r ∧ r ≤ 255 := by
  rw [toNat_narrow]; omega

/-- What is written of an exact result is the result column of R110. -/
theorem toNat_narrow_of_aluExact {op : AluOp} {a b : Byte} {r : Int} (h : aluExact op a b = some r) :
    (narrow r).toNat = aluRule op a.toNat b.toNat := by
  cases op with
  | add => cases h; rw [narrow_add]; exact BitVec.toNat_add a b
  | sub =>
    cases h
    rw [narrow_sub, BitVec.toNat_sub, aluRule]
    omega
  | mul => cases h; rw [narrow_mul]; exact BitVec.toNat_mul a b
  | div =>
    obtain ⟨quotient, range⟩ := of_aluExact_div h
    exact Int.ofNat_inj.1 ((toNat_narrow_eq_iff.2 range).trans quotient)

/-- Settles O24: `narrow` reduces modulo 256, which changes exactly what is not in 0 to 255, and a quotient is a byte. -/
theorem aluResultsModulo256 : Obligations.AluResultsModulo256 := by
  unfold Obligations.AluResultsModulo256
  refine fun op a b => ⟨aluExact_eq_none_iff, fun r h =>
    ⟨toNat_narrow_of_aluExact h, toNat_narrow r, toNat_narrow_eq_iff, ?_, ?_, ?_, ?_⟩⟩
  · rintro rfl; exact (Option.some.inj h).symm
  · rintro rfl; exact (Option.some.inj h).symm
  · rintro rfl; exact (Option.some.inj h).symm
  · rintro rfl; exact of_aluExact_div h

/-! ### An ALU instruction that completes (R105 to R109) -/

/-- With both operands naming registers and no zero divisor, an ALU instruction writes its result and completes. -/
theorem exec_alu_completes {opA opB : Byte} {a b : Fin 8} (op : AluOp) (s : State) (ha : opA.toNat = a.val)
    (hb : opB.toNat = b.val) (defined : ¬ (op = .div ∧ s.reg b = 0)) :
    exec ((aluOpcode op).withOperands opA opB) s =
      .next ((s.setReg a (BitVec.ofNat 8 (aluRule op (s.reg a).toNat (s.reg b).toNat))).advance 2) := by
  obtain ⟨r, hr⟩ := Option.ne_none_iff_exists'.1 (mt aluExact_eq_none_iff.1 defined)
  rw [exec_alu_some op s ha hb hr, ← toNat_narrow_of_aluExact hr, BitVec.ofNat_toNat, BitVec.setWidth_eq]

/-- The bytes of two register numbers name those registers. -/
theorem exec_alu_registers (op : AluOp) (a b : Fin 8) (s : State) (defined : ¬ (op = .div ∧ s.reg b = 0)) :
    exec ((aluOpcode op).withOperands (BitVec.ofNat 8 a) (BitVec.ofNat 8 b)) s =
      .next { s with
        x := s.x.set a (BitVec.ofNat 8 (aluRule op (s.reg a).toNat (s.reg b).toNat))
        pc := s.pc + 3 } :=
  exec_alu_completes op s (regCheck_ok_iff.1 (regCheck_ofFin a)) (regCheck_ok_iff.1 (regCheck_ofFin b)) defined

/-- Settles O19: none of the three divides. -/
theorem addSubMulComplete : Obligations.AddSubMulComplete := by
  unfold Obligations.AddSubMulComplete
  exact fun a b s => ⟨exec_alu_registers .add a b s (by simp), exec_alu_registers .sub a b s (by simp),
    exec_alu_registers .mul a b s (by simp)⟩

/-- Settles O20. -/
theorem divCompletes : Obligations.DivCompletes := by
  unfold Obligations.DivCompletes
  exact fun a b s nonzero => exec_alu_registers .div a b s fun ⟨_, zero⟩ => nonzero zero

/-! ### An ALU instruction check by check, and a step at its opcode byte (R105 to R109) -/

/-- The reader's words for the zero divisor fault, taken (R124, R126). -/
theorem faulted_divisionByZero (b : Byte) (s : State) :
    faulted s .divisionByZero (info b) = takeFault (.divisionByZero b) s :=
  congrArg (faulted s .divisionByZero) (BitVec.ofNat_toNat 9 b)

/-- The common handler's checks in order, then the register write, total on the vector (R14, R105). -/
theorem exec_alu_checks (op : AluOp) (opA opB : Byte) (s : State) :
    exec ((aluOpcode op).withOperands opA opB) s = .next (
      if 8 ≤ opA.toNat then faulted s .outOfBoundsReg (info opA)
      else if 8 ≤ opB.toNat then faulted s .outOfBoundsReg (info opB)
      else if op = .div ∧ regAt s opB = 0 then faulted s .divisionByZero (info opB)
      else { s with
        x := s.x.setIfInBounds opA.toNat (BitVec.ofNat 8 (aluRule op (regAt s opA).toNat (regAt s opB).toNat))
        pc := s.pc + 3 }) := by
  obtain largeA | ⟨a, ha⟩ := ge_or_names opA
  · rw [if_pos largeA, faulted_outOfBoundsReg, exec_alu_opA_ge op s largeA]
  rw [if_neg (by omega)]
  obtain largeB | ⟨b, hb⟩ := ge_or_names opB
  · rw [if_pos largeB, faulted_outOfBoundsReg, exec_alu_opB_ge op s ha largeB]
  rw [if_neg (by omega), regAt_eq_reg s ha, regAt_eq_reg s hb]
  split
  case isTrue zeroDivisor =>
    rw [faulted_divisionByZero, exec_alu_none op s ha hb (aluExact_eq_none_iff.2 zeroDivisor)]
  case isFalse defined =>
    rw [exec_alu_completes op s ha hb defined, ha, ← setReg_x_eq_setIfInBounds]; rfl

/-- The reader's ALU opcode bytes are those of the table (R54). -/
theorem aluByte_eq_byte (op : AluOp) : aluByte op = (aluOpcode op).byte := by cases op <;> rfl

/-- Settles O33: an ALU instruction has two operand bytes, which lie inside memory up to pc 253. -/
theorem aluStep : Obligations.AluStep := by
  unfold Obligations.AluStep
  intro op s running inside opcode
  rw [aluByte_eq_byte] at opcode
  split
  case isTrue high => exact step_operand_outside inside opcode running (by rw [nops_aluOpcode]; omega)
  case isFalse low =>
    rw [step_operands_inside inside opcode running (by rw [nops_aluOpcode]; omega)]
    exact exec_alu_checks op (cell s 1) (cell s 2) s

end Sys2Proof.Machine
end

section
/-! SUPPORT. The faults a step can meet and the order in which it meets them; that in FAULTED the record stands; the exit
status (R121 to R132). Settles O22, O34, O35, O37 and O52. -/

namespace Sys2Proof.Machine

open Sys2Proof.Safety Sys2Proof.Stated

/-! ### The zero divisor (R124) -/

/-- A register index fault of `op_a` comes before the zero divisor: where DIV takes the latter, `op_a` names a register. -/
theorem lt_of_exec_div_zeroDivisor {opA opB : Byte} {s : State}
    (h : exec (.div opA opB) s = .next (takeFault (.divisionByZero opB) s)) : opA.toNat < 8 := by
  by_contra large
  have first := exec_alu_opA_ge (opB := opB) .div s (Nat.le_of_not_lt large)
  have codes := congrArg State.faultCode (Host.Outcome.next.inj (first.symm.trans h))
  simp [Fault.code] at codes

/-- Settles O22: DIV has no exact result for a zero divisor, and no other effect of an instruction takes this fault. -/
theorem zeroDivisorFaults : Obligations.ZeroDivisorFaults := by
  unfold Obligations.ZeroDivisorFaults
  refine ⟨fun a b s zero => ?_, fun i s t h before after => ?_⟩
  · rw [faulted_divisionByZero]
    exact exec_alu_none .div s (regCheck_ok_iff.1 (regCheck_ofFin a)) (regCheck_ok_iff.1 (regCheck_ofFin b))
      (aluExact_eq_none_iff.2 ⟨rfl, zero⟩)
  · obtain ⟨e, effect, rfl⟩ := exec_next h
    cases effect with
    | badIndex => simp [Effect.apply, Fault.code] at after
    | zeroDivisor opA opB b isDiv index zero =>
      subst isDiv
      exact ⟨opA, opB, rfl, lt_of_exec_div_zeroDivisor h, by omega, by rw [regAt_eq_reg s index, zero]⟩
    | write | output | halt => exact absurd after before

/-! ### Faults of the opcode fetch and of the table lookup (R121, R122) -/

/-- A pc outside memory faults with itself as the record (R122, R126). -/
theorem step_pc_outside {s : State} (running : Stepping s) (outside : 256 ≤ s.pc.toNat) :
    step s = .next (faulted s .outOfBoundsMem s.pc) := by
  obtain ⟨-, e⟩ | ⟨inside, -⟩ | ⟨_, inside, -⟩ | ⟨_, inside, -⟩ | ⟨_, inside, -⟩ := fetchInstr_cases s
  · rw [step_fetchFault ((canStep_iff s).2 running) e, takeFault, Fault.info, BitVec.ofNat_toNat, BitVec.setWidth_eq]; rfl
  all_goals omega

/-- The reader's opcode bytes are those of the table (R54). -/
theorem exists_opcode_of_mem_definedBytes {ir : Byte} (h : ir ∈ definedBytes) : ∃ op : Opcode, ir = op.byte := by
  have table : definedBytes = [Opcode.ldi, .prn, .hlt, .add, .sub, .mul, .div].map Opcode.byte := rfl
  rw [table] at h
  obtain ⟨op, -, e⟩ := List.mem_map.1 h
  exact ⟨op, e.symm⟩

/-- The fetch of an undefined opcode byte inside memory stops at the table lookup (R74, R121). -/
theorem fetchInstr_unknown {s : State} (inside : s.pc.toNat < 256) (unknown : cell s 0 ∉ definedBytes) :
    fetchInstr s = .error (.unknownOpcode (cell s 0)) := by
  have undefined (op : Opcode) : Memory.read s.mem s.pc.toNat ≠ op.byte := fun h => by
    have h : cell s 0 = op.byte := h
    exact unknown (h ▸ byte_mem_definedBytes op)
  obtain ⟨outside, -⟩ | ⟨-, -, e⟩ | ⟨op, -, h, -⟩ | ⟨op, -, h, -⟩ | ⟨op, -, h, -⟩ := fetchInstr_cases s
  · omega
  · exact e
  all_goals exact absurd h (undefined op)

/-- The reader's words for the unknown opcode fault, taken (R121, R126). -/
theorem faulted_unknownOpcode (ir : Byte) (s : State) :
    faulted s .unknownOpcode (info ir) = takeFault (.unknownOpcode ir) s :=
  congrArg (faulted s .unknownOpcode) (BitVec.ofNat_toNat 9 ir)

/-- Settles O34. -/
theorem unknownOpcodeFaults : Obligations.UnknownOpcodeFaults := by
  unfold Obligations.UnknownOpcodeFaults
  intro s running inside unknown
  rw [faulted_unknownOpcode]
  exact step_fetchFault ((canStep_iff s).2 running) (fetchInstr_unknown inside unknown)

/-! ### The first fault (R127) -/

/-- A step raises the fault it is given with its record, or none where it is given none, and then leaves the record. -/
def RaisesExactly (s : State) : Option (FaultCode × BitVec 9) → Prop
  | some (c, n) => step s = .next (faulted s c n)
  | none => ∃ t, step s = .next t ∧ t.runState ≠ .faulted ∧ t.faultCode = s.faultCode ∧ t.faultInfo = s.faultInfo

/-- What completes in RUNNING raises nothing. -/
theorem raisesExactly_none {s t : State} (running : Stepping s) (h : step s = .next t) (stays : t.runState = s.runState)
    (code : t.faultCode = s.faultCode) (detail : t.faultInfo = s.faultInfo) : RaisesExactly s none :=
  ⟨t, h, by simp [stays, running.1], code, detail⟩

section OpcodeAtPc

variable {s : State} (inside : s.pc.toNat < 256)
include inside

/-- The two addresses from which a second operand byte is out of reach: R127 meets the one at `op_a`, the other at `op_b`. -/
theorem le_pc_iff : 254 ≤ s.pc.toNat ↔ s.pc.toNat = 255 ∨ s.pc.toNat = 254 := by omega

/-! The chain of R127 at each kind of defined opcode byte. -/

theorem firstFault_ldi (opcode : cell s 0 = 0x82) : firstFault s =
    if 254 ≤ s.pc.toNat then some (.outOfBoundsMem, 256)
    else if 8 ≤ (cell s 1).toNat then some (.outOfBoundsReg, info (cell s 1))
    else none := by
  simp [firstFault, opcode, definedBytes, Nat.not_le.2 inside, le_pc_iff inside, ite_or]

theorem firstFault_prn (opcode : cell s 0 = 0x47) : firstFault s =
    if s.pc.toNat = 255 then some (.outOfBoundsMem, 256)
    else if 8 ≤ (cell s 1).toNat then some (.outOfBoundsReg, info (cell s 1))
    else none := by
  simp [firstFault, opcode, definedBytes, Nat.not_le.2 inside]

theorem firstFault_hlt (opcode : cell s 0 = 0x01) : firstFault s = none := by
  simp [firstFault, opcode, definedBytes, inside]

theorem firstFault_alu (op : AluOp) (opcode : cell s 0 = aluByte op) : firstFault s =
    if 254 ≤ s.pc.toNat then some (.outOfBoundsMem, 256)
    else if 8 ≤ (cell s 1).toNat then some (.outOfBoundsReg, info (cell s 1))
    else if 8 ≤ (cell s 2).toNat then some (.outOfBoundsReg, info (cell s 2))
    else if op = .div ∧ regAt s (cell s 2) = 0 then some (.divisionByZero, info (cell s 2))
    else none := by
  cases op <;> simp [firstFault, opcode, definedBytes, aluByte, Nat.not_le.2 inside, le_pc_iff inside, ite_or]

variable (running : Stepping s)
include running

/-! The step there raises what the chain says. -/

theorem raisesExactly_ldi (opcode : cell s 0 = 0x82) : RaisesExactly s (firstFault s) := by
  have run := ldiStep s running inside opcode
  rw [firstFault_ldi inside opcode]
  split_ifs at run ⊢
  · exact run
  · exact run
  · exact raisesExactly_none running run rfl rfl rfl

theorem raisesExactly_prn (opcode : cell s 0 = 0x47) : RaisesExactly s (firstFault s) := by
  have run := prnStep s running inside opcode
  rw [firstFault_prn inside opcode]
  split_ifs at run ⊢
  · exact run
  · exact run
  · obtain ⟨t, run, rfl, -⟩ := run
    exact raisesExactly_none running run rfl rfl rfl

theorem raisesExactly_hlt (opcode : cell s 0 = 0x01) : RaisesExactly s (firstFault s) := by
  rw [firstFault_hlt inside opcode]
  exact ⟨s.halt, step_hlt running inside opcode, by simp, halt_faultCode s, halt_faultInfo s⟩

theorem raisesExactly_alu (op : AluOp) (opcode : cell s 0 = aluByte op) : RaisesExactly s (firstFault s) := by
  have run := aluStep op s running inside opcode
  rw [firstFault_alu inside op opcode]
  split_ifs at run ⊢
  · exact run
  · exact run
  · exact run
  · exact run
  · exact raisesExactly_none running run rfl rfl rfl

theorem raisesExactly_opcode {op : Opcode} (opcode : cell s 0 = op.byte) : RaisesExactly s (firstFault s) := by
  cases op with
  | ldi => exact raisesExactly_ldi inside running opcode
  | prn => exact raisesExactly_prn inside running opcode
  | hlt => exact raisesExactly_hlt inside running opcode
  | add => exact raisesExactly_alu inside running .add opcode
  | sub => exact raisesExactly_alu inside running .sub opcode
  | mul => exact raisesExactly_alu inside running .mul opcode
  | div => exact raisesExactly_alu inside running .div opcode

end OpcodeAtPc

/-- Settles O35: the chain's first two conditions are the faults of the fetch and of the lookup; beyond them stands a
defined opcode byte. -/
theorem firstFaultWins : Obligations.FirstFaultWins := by
  unfold Obligations.FirstFaultWins
  intro s running
  change RaisesExactly s (firstFault s)
  by_cases outside : 256 ≤ s.pc.toNat
  · have first : firstFault s = some (.outOfBoundsMem, s.pc) := by rw [firstFault, if_pos outside]
    rw [first]
    exact step_pc_outside running outside
  have inside : s.pc.toNat < 256 := Nat.lt_of_not_le outside
  by_cases defined : cell s 0 ∈ definedBytes
  · obtain ⟨op, opcode⟩ := exists_opcode_of_mem_definedBytes defined
    exact raisesExactly_opcode inside running opcode
  · have first : firstFault s = some (.unknownOpcode, info (cell s 0)) := by
      rw [firstFault, if_neg outside, if_pos defined]
    rw [first]
    exact unknownOpcodeFaults s running inside defined

/-! ### The record stands in FAULTED (R130) -/

/-- In FAULTED with this record. -/
def Records (c : FaultCode) (n : BitVec 9) (s : State) : Prop :=
  s.runState = .faulted ∧ s.faultCode = c ∧ s.faultInfo = n

theorem canStep_eq_false_of_faulted {s : State} (h : s.runState = .faulted) : canStep s = false := by
  simp [canStep, h]

/-- In FAULTED every event but the host's reset leaves the state and the record: no step is taken, and it is not the load
phase (R70, R129). -/
theorem event_records {c : FaultCode} {n : BitVec 9} {e : Event} {s t : State} (notReset : e ≠ .host .reset)
    (hs : Records c n s) (h : event e s = .next t) : Records c n t := by
  obtain ⟨ends, -⟩ := id hs
  match e with
  | .coreStep =>
    have stays := step_idle (s := s) (by simp [canStep_eq_false_of_faulted ends])
    cases stays.symm.trans h
    exact hs
  | .host .reset => exact absurd rfl notReset
  | .host (.load addr v) =>
    obtain ⟨phase, -⟩ := of_hostMove_load h
    simp [inLoadPhase, ends] at phase
  | .host (.setRunEn level) => cases h; exact hs

/-- What each event of a sequence keeps, the sequence keeps: `events_induction` for what not every event keeps. -/
theorem events_induction_mem {P : State → Prop} {es : List Event} {s t : State}
    (keep : ∀ e ∈ es, ∀ {s t}, P s → event e s = .next t → P t) (hs : P s) (h : events es s = .next t) : P t := by
  induction es generalizing s with
  | nil => cases h; exact hs
  | cons e es ih =>
    unfold events at h
    split at h
    · exact ih (fun e' he' => keep e' (.tail e he')) (keep e (.head es) hs ‹_›) h
    · cases h
    · cases h

/-- Settles O37. -/
theorem faultRecordIsWrittenOnce : Obligations.FaultRecordIsWrittenOnce := by
  unfold Obligations.FaultRecordIsWrittenOnce
  intro s ends
  refine ⟨canStep_eq_false_of_faulted ends, fun es t noReset h => ?_⟩
  have keep : ∀ e ∈ es, ∀ {u v}, Records s.faultCode s.faultInfo u → event e u = .next v →
      Records s.faultCode s.faultInfo v := fun e he => event_records fun isReset => noReset (isReset ▸ he)
  exact events_induction_mem keep ⟨ends, rfl, rfl⟩ h

/-! ### The exit status (R132) -/

/-- A run's reason is HALTED exactly where it halted. -/
theorem endReason_eq_halted_iff (s : State) : endReason s = some .halted ↔ Succeeded s := by
  unfold endReason Succeeded
  cases s.runState <;> simp

theorem endReason_of_faulted {s : State} (h : s.runState = .faulted) : endReason s = some (.fault s.faultCode) := by
  rw [endReason, h]

/-- Settles O52: distinct reasons have distinct numbers, and HALTED has 0. -/
theorem exitZeroExactlyOnHalt : Obligations.ExitZeroExactlyOnHalt := by
  unfold Obligations.ExitZeroExactlyOnHalt
  rintro f s t ⟨zero, distinct⟩
  have same {r r' : Option EndReason} : r.map f = r'.map f ↔ r = r' := (Option.map_injective distinct).eq_iff
  refine ⟨?_, fun hs ht status => ?_⟩
  · calc (endReason s).map f = some 0
      _ ↔ (endReason s).map f = (some .halted).map f := by rw [Option.map_some, zero]
      _ ↔ endReason s = some .halted := same
      _ ↔ Succeeded s := endReason_eq_halted_iff s
  · have reason := same.1 status
    rw [endReason_of_faulted hs, endReason_of_faulted ht] at reason
    exact EndReason.fault.inj (Option.some.inj reason)

end Sys2Proof.Machine
end

section
/-! SUPPORT. That reset alone leaves HALTED and FAULTED, that a whole well-formed instruction with a non-zero divisor takes
no fault, and that a word placed at `pc` is fetched (R150, R155, R164). Settles O3, O28 and O29. -/

namespace Sys2Proof.Machine

open Sys2Proof.Safety

/-! ### Reset (R26, R150) -/

/-- In HALTED and FAULTED every event but reset leaves `run_state`: no step is taken, it is not the load phase, and the
level of `run_en` is no part of it (R70, R150). -/
theorem event_runState_of_ended {e : Event} {s t : State} (ended : Ended s) (notReset : e ≠ .host .reset)
    (h : event e s = .next t) : t.runState = s.runState := by
  match e with
  | .coreStep =>
    have stays : step s = .next s := noStepUnlessEnabled s fun ⟨running, _⟩ => ended running
    cases stays.symm.trans h
    rfl
  | .host .reset => exact absurd rfl notReset
  | .host (.load addr v) =>
    obtain ⟨phase, -⟩ := of_hostMove_load h
    have outside : inLoadPhase s = false := inLoadPhase_eq_false fun running => absurd running ended
    simp [outside] at phase
  | .host (.setRunEn level) => cases h; rfl

/-- Settles O3: the host's reset leaves every field of R26 as `State.reset` has it. -/
theorem resetIsTheOnlyWayOut : Obligations.ResetIsTheOnlyWayOut := by
  unfold Obligations.ResetIsTheOnlyWayOut
  refine ⟨fun s => ⟨hostReset s, rfl, resetValues⟩, fun e s t ended h changes => ?_⟩
  by_contra notReset
  exact changes (event_runState_of_ended ended notReset h)

/-! ### A clean instruction (R155) -/

/-- Settles O28: the two faults an instruction can take are excluded, its index fault by well-formedness and its zero divisor
by hypothesis. -/
theorem cleanInstructionIsSafe : Obligations.CleanInstructionIsSafe := by
  unfold Obligations.CleanInstructionIsSafe
  intro s i rest running decoded wf divisor
  obtain ⟨t, stepped⟩ := exists_step s
  have run := stepRunsTheDecodedInstruction s i rest running decoded
  obtain ⟨e, effect, rfl⟩ := exec_next (run.symm.trans stepped)
  refine ⟨_, stepped, ?_⟩
  have safe : Safe s := by simp [Safe, running.1]
  cases effect with
  | badIndex b operand large =>
    have small := (wellFormed_iff i).1 wf b operand
    omega
  | zeroDivisor opA opB b isDiv index zero =>
    exact absurd ((regAt_eq_reg s index).trans zero) (divisor opA opB isDiv)
  | write | output => exact safe
  | halt => simp [Safe, Effect.apply]

/-! ### A word placed at `pc` (log entry 9) -/

@[simp] theorem length_tableBytes (nbits w : Nat) : (tableBytes nbits w).length = 3 := by simp [tableBytes]

theorem decode_of_decodeTableWord {nbits w : Nat} {i : Instr} (h : decodeTableWord nbits w = some i) :
    ∃ rest, decode (tableBytes nbits w) = .ok (i, rest) := by
  unfold decodeTableWord at h
  split at h <;> cases h
  exact ⟨_, ‹_›⟩

/-- Where memory has room for the longest instruction at `pc`, the placed bytes are read from `pc` on (R31, R34). -/
theorem memRead_placeAtPc {s : State} {nbits w k : Nat} {b : Byte} (hm : s.mem.wf = true) (room : s.pc.toNat ≤ 253)
    (h : byteAt (tableBytes nbits w) k = .ok b) : memRead (placeAtPc s nbits w).mem (s.pc.toNat + k) = .ok b := by
  have placed := byteAt_eq_ok_iff.1 h
  have small := (List.getElem?_eq_some_iff.1 placed).1
  rw [length_tableBytes] at small
  rw [memRead_lt (by omega), placeAtPc_mem, read_writeBytes _ _ _ hm, length_tableBytes, if_pos (by omega),
    Nat.add_sub_cancel_left, placed, Option.getD_some]

/-- Settles O29: the fetch reads at least the bytes of the word, so it answers the instruction they decode to. -/
theorem placedWordIsRun : Obligations.PlacedWordIsRun := by
  unfold Obligations.PlacedWordIsRun
  intro s nbits w i running hm room word
  obtain ⟨rest, decoded⟩ := decode_of_decodeTableWord word
  have fetched : fetchInstr (placeAtPc s nbits w) = .ok i :=
    decodeWith_mono Fault.unknownOpcode (fun _ _ => memRead_placeAtPc hm room) (decodeWith_of_decode_eq_ok decoded)
  exact ⟨step_exec ((canStep_iff _).2 ⟨running, rfl⟩) fetched, _, rfl⟩

end Sys2Proof.Machine
end

section
/-! SUPPORT. A token keeps every character of its line that is not white space, and one that is no binary digit leaves it
without a value (R153, R154). Settles O9. -/

namespace Sys2Proof.Machine

theorem mem_dropWhile_isSpaceChar {line : List Char} {c : Char} (hc : c ∈ line) (visible : isSpaceChar c = false) :
    c ∈ line.dropWhile isSpaceChar := by
  rw [← List.takeWhile_append_dropWhile (p := isSpaceChar) (l := line)] at hc
  refine (List.mem_append.1 hc).resolve_left fun front => ?_
  simp [List.mem_takeWhile_imp front] at visible

/-- Stripping drops white space alone (R153). -/
theorem mem_strip {line : List Char} {c : Char} (hc : c ∈ line) (visible : isSpaceChar c = false) : c ∈ strip line := by
  rw [strip, List.mem_reverse]
  exact mem_dropWhile_isSpaceChar (List.mem_reverse.2 (mem_dropWhile_isSpaceChar hc visible)) visible

/-- A string with a character that is no binary digit has no base-2 value (R153). -/
theorem binaryValue_eq_none {token : List Char} {c : Char} (hc : c ∈ token) (not0 : c ≠ '0') (not1 : c ≠ '1')
    (acc : Nat) : binaryValue acc token = none := by
  induction token generalizing acc with
  | nil => cases hc
  | cons d ds ih =>
    rw [binaryValue]
    rcases List.mem_cons.1 hc with rfl | hc
    · rw [if_neg not0, if_neg not1]
    · simp [ih hc]

/-- A token without a base-2 value is malformed (R153, R154). -/
theorem parseLine_of_binaryValue_eq_none {line : List Char} (hne : strip (dropComment line) ≠ [])
    (h : binaryValue 0 (strip (dropComment line)) = none) :
    parseLine line = .error (.malformedToken (strip (dropComment line))) := by
  obtain ⟨c, cs, token⟩ := List.exists_cons_of_ne_nil hne
  rw [token] at h
  simp only [parseLine, token, h]

/-- Settles O9: the character is still in the token. -/
theorem nonBinaryTokenIsMalformed : Obligations.NonBinaryTokenIsMalformed := by
  unfold Obligations.NonBinaryTokenIsMalformed
  intro line c hc visible not0 not1
  have inToken := mem_strip hc visible
  exact parseLine_of_binaryValue_eq_none (List.ne_nil_of_mem inToken) (binaryValue_eq_none inToken not0 not1 0)

end Sys2Proof.Machine
end

section
/-! SUPPORT. The state a load ends in, for an image of bytes and for an image text: the reset state with the first 256
bytes in memory, whether the load succeeds or not (R152 to R157). Settles O6, O7, O10, O53 and O54. -/

namespace Sys2Proof.Machine

open Sys2Proof.Stated

/-! ### The state a load ends in -/

/-- The reset state with `run_en` 0 and the bytes of an image that fit in memory from address 0 (R152). -/
def loaded (image : List Byte) (s : State) : State :=
  { beforeLoad s with mem := Memory.writeBytes [] 0 (image.take 256) }

/-- The first 256 bytes of the image stand from address 0, and every other cell reads 0 (R157). -/
theorem read_loaded (image : List Byte) (s : State) (a : Nat) :
    Memory.read (loaded image s).mem a = ((image.take 256)[a]?).getD 0 := by
  rw [loaded, read_writeBytes 0 _ a rfl]
  split
  case isTrue => rfl
  case isFalse outside =>
    have len : (image.take 256).length ≤ 256 := List.length_take_le 256 image
    rw [List.getElem?_eq_none (by omega)]
    rfl

/-- Every register is 0 after a load (R157). -/
theorem loaded_x (image : List Byte) (s : State) (i : Fin 8) : (loaded image s).x[i] = 0 := resetValues.1 i

/-! ### Images of bytes (R152, R157) -/

/-- An image that fits is loaded whole. -/
theorem loadBytes_beforeLoad {image : List Byte} (s : State) (fits : image.length ≤ 256) :
    loadBytes 0 image (beforeLoad s) = (loaded image s, none) := by
  rw [loadBytes_fit rfl (by omega), loaded, List.take_of_length_le fits]; rfl

/-- An image that does not fit ends in byte 256's error (D20). -/
theorem loadBytes_beforeLoad_over {image : List Byte} (s : State) (tooLong : 256 < image.length) :
    loadBytes 0 image (beforeLoad s) = ({ loaded image s with ldErr := true }, some (.outOfBounds 256)) :=
  loadBytes_over rfl (Nat.zero_le _) (by omega)

theorem launch_fit {image : List Byte} (s : State) (fits : image.length ≤ 256) :
    launch image s = ({ loaded image s with runEn := true }, none) := by
  rw [launch, loadBytes_beforeLoad s fits]; rfl

theorem launch_over {image : List Byte} (s : State) (tooLong : 256 < image.length) :
    launch image s = ({ loaded image s with ldErr := true }, some (.outOfBounds 256)) := by
  rw [launch, loadBytes_beforeLoad_over s tooLong]; rfl

/-- Settles O6. -/
theorem launchGivesLaunchState : Obligations.LaunchGivesLaunchState := by
  unfold Obligations.LaunchGivesLaunchState
  intro image s fits
  have reads (k : Nat) : Memory.read (loaded image s).mem k = (image[k]?).getD 0 := by
    rw [read_loaded, List.take_of_length_le fits]
  refine ⟨_, launch_fit s fits, fun k inside => ?_, fun k beyond _ => ?_, loaded_x image s,
    rfl, rfl, rfl, rfl, rfl, rfl⟩
  · simp [reads, inside]
  · simp [reads, beyond]

/-- Settles O7. -/
theorem overlongImageDoesNotStart : Obligations.OverlongImageDoesNotStart := by
  unfold Obligations.OverlongImageDoesNotStart
  intro image s tooLong
  refine ⟨_, launch_over s tooLong, fun k inside low => ?_, rfl, rfl, rfl, rfl, rfl⟩
  simp [read_loaded, inside, low]

/-! ### Image texts (R153, R154) -/

section GoodLines

variable {good rest : List (List Char)} {parsed : List (Option Byte)} (parses : good.map parseLine = parsed.map .ok)
include parses

/-- Lines that all parse are launched as the image of their bytes. -/
theorem launchFile_good (s : State) : launchFile (some good) s = launch (parsed.filterMap id) s := by
  have lines := loadLines_good (n := 0) (rest := []) (s := beforeLoad s) parses
  rw [List.append_nil] at lines
  rw [launchFile, launch, lines]
  rcases loadBytes 0 (parsed.filterMap id) (beforeLoad s) with ⟨t, _ | e⟩ <;> rfl

/-- Lines that give too many bytes end the load, whatever follows them. -/
theorem launchFile_over (s : State) (tooLong : 256 < (parsed.filterMap id).length) :
    launchFile (some (good ++ rest)) s =
      ({ loaded (parsed.filterMap id) s with ldErr := true }, some (.outOfBounds 256)) := by
  rw [launchFile, loadLines_good parses, loadBytes_beforeLoad_over s tooLong]; rfl

/-- A malformed line ends the load with its own error, and the bytes before it stay. -/
theorem launchFile_malformed (s : State) (fits : (parsed.filterMap id).length ≤ 256) {bad : List Char} {e : LoadError}
    (malformed : parseLine bad = .error e) :
    launchFile (some (good ++ bad :: rest)) s = (loaded (parsed.filterMap id) s, some e) := by
  rw [launchFile, loadLines_good parses, loadBytes_beforeLoad s fits]
  simp only [loadLines, malformed, startIfLoaded]

/-- The reader's bytes of a text begin with those of its lines that parse. -/
theorem bytesOfLines_append : bytesOfLines (good ++ rest) = parsed.filterMap id ++ bytesOfLines rest := by
  induction good generalizing parsed with
  | nil =>
    obtain rfl : parsed = [] := by simpa using parses.symm
    rfl
  | cons line good ih =>
    cases parsed with
    | nil => cases parses
    | cons p parsed =>
      obtain ⟨hp, tail⟩ := List.cons.inj parses
      cases p <;> simp [bytesOfLines, hp, ih tail]

end GoodLines

/-- Settles O53. -/
theorem fileLaunchGivesLaunchState : Obligations.FileLaunchGivesLaunchState := by
  unfold Obligations.FileLaunchGivesLaunchState
  intro lines parsed s parses fits
  refine ⟨_, (launchFile_good parses s).trans (launch_fit s fits), fun a => ?_, loaded_x (parsed.filterMap id) s,
    rfl, rfl, rfl, rfl, rfl, rfl⟩
  rw [read_loaded, List.take_of_length_le fits]

/-- Settles O54. -/
theorem firstLoadErrorIsReported : Obligations.FirstLoadErrorIsReported := by
  unfold Obligations.FirstLoadErrorIsReported
  exact ⟨fun s => ⟨_, rfl⟩, fun good rest parsed s parses =>
    ⟨fun fits bad e malformed => ⟨_, launchFile_malformed parses s fits malformed⟩,
      fun tooLong => ⟨_, launchFile_over parses s tooLong⟩⟩⟩

/-! ### After a load-time error (R125, R152, R154) -/

/-- A load that ends in an error leaves the bytes before it, and nothing else but the level of `ld_err`. -/
theorem launchFile_error {file : Option (List (List Char))} {s t : State} {e : LoadError}
    (h : launchFile file s = (t, some e)) :
    ∃ refused, t = { loaded (bytesOfLines (file.getD [])) s with ldErr := refused } := by
  cases file with
  | none => cases h; exact ⟨false, rfl⟩
  | some lines =>
    obtain ⟨good, parsed, rest, rfl, parses, ends⟩ := lines_split lines
    have noMore : bytesOfLines rest = [] := by
      obtain rfl | ⟨bad, more, e', rfl, malformed⟩ := ends
      · rfl
      · simp [bytesOfLines, malformed]
    rw [Option.getD_some, bytesOfLines_append parses, noMore, List.append_nil]
    rcases Nat.lt_or_ge 256 (parsed.filterMap id).length with tooLong | fits
    · rw [launchFile_over parses s tooLong] at h
      cases h
      exact ⟨true, rfl⟩
    obtain rfl | ⟨bad, more, e', rfl, malformed⟩ := ends
    · rw [List.append_nil, launchFile_good parses, launch_fit s fits] at h
      cases h
    · rw [launchFile_malformed parses s fits malformed] at h
      cases h
      exact ⟨false, rfl⟩

/-- Settles O10: `run_en` is still 0. -/
theorem loadErrorNeverStarts : Obligations.LoadErrorNeverStarts := by
  unfold Obligations.LoadErrorNeverStarts
  intro file s t e h
  obtain ⟨refused, rfl⟩ := launchFile_error h
  refine ⟨loaded_x (bytesOfLines (file.getD [])) s, rfl, rfl, rfl, rfl, rfl, rfl, ?_, read_loaded _ s⟩
  exact noStepUnlessEnabled _ fun ⟨_, enabled⟩ => Bool.false_ne_true enabled

end Sys2Proof.Machine
end
